-- ==== Sys2Proof/Word.lean ====
section
/-! DEFINITION. The machine's words (spec 00_scope.md R5, R7): 8-bit bytes, 16-bit addresses, the 17-bit extended program counter. -/

namespace Sys2Proof

/-- A register or memory byte (R5: data width 8 bits). -/
abbrev Byte := BitVec 8

/-- An address of the flat 65536-byte space (R5, R32). -/
abbrev Addr := BitVec 16

/-- The extended program counter: `PC` in bits 15:0 and the incrementer's carry-out `PCX` in bit 16 (R15). -/
abbrev ExtPc := BitVec 17

end Sys2Proof
end

