-- ==== Sys2Proof/Syntax.lean ====
section
/-! DEFINITION. The instructions of spec/opcode_table.json, one constructor for each mnemonic. The table's 250 rows of
`NOP_UNASSIGNED` are one constructor that keeps the opcode byte (log entry 4). -/

namespace Sys2Proof

/-- An instruction with its operand bytes assembled (30_encoding.md R68, R70, R72, R75). -/
inductive Instr where
  /-- `LDA #imm8`, opcode 0xA9 (R94). -/
  | ldaImm (imm8 : Byte)
  /-- `LSR A`, opcode 0x4A (R97). -/
  | lsrAcc
  /-- `LSR zp`, opcode 0x46 (R98). -/
  | lsrZp (zp : Byte)
  /-- `LSR zp,X`, opcode 0x56 (R99). -/
  | lsrZpX (zp : Byte)
  /-- `LSR abs`, opcode 0x4E; the address is `b2 : b1` (R100). -/
  | lsrAbs (addr : Addr)
  /-- `LSR abs,X`, opcode 0x5E; the base address is `b2 : b1` (R101). -/
  | lsrAbsX (base : Addr)
  /-- `NOP_UNASSIGNED`: every opcode value that R72 does not assign (R75, R83). -/
  | nopUnassigned (op : Byte)
deriving DecidableEq, Repr

end Sys2Proof
end

