-- ==== Sys2Proof/WellFormed.lean ====
section
/-! DEFINITION. Which instruction terms stand for an instruction of the hardware. Every operand value of an assigned
form is one; an unassigned no-op must hold an opcode that R72 does not assign (R75). -/

namespace Sys2Proof

/-- The six opcode values of the opcode map (R72). -/
def assignedOpcodes : List Byte := [0xA9, 0x4A, 0x46, 0x56, 0x4E, 0x5E]

/-- The one check: the opcode of an unassigned no-op is not an assigned one (R75). -/
def Instr.wf : Instr → Bool
  | .ldaImm _ => true
  | .lsrAcc => true
  | .lsrZp _ => true
  | .lsrZpX _ => true
  | .lsrAbs _ => true
  | .lsrAbsX _ => true
  | .nopUnassigned op => !assignedOpcodes.contains op

end Sys2Proof
end

