-- ==== Sys2Proof/Decode.lean ====
section
/-! DEFINITION. The decoder (30_encoding.md R67 to R80), the encoder written from the same table, and the host's
`decodeTableWord`. Decoding never traps and never rejects an opcode (R76); it rejects, by name, only a byte list that
ends before the instruction does. -/

namespace Sys2Proof

/-- How many operand bytes follow the opcode byte: `Length(op) - 1` (R77). -/
def operandCount (op : Byte) : Nat :=
  if op = 0xA9 ∨ op = 0x46 ∨ op = 0x56 then 1
  else if op = 0x4E ∨ op = 0x5E then 2
  else 0

/-- `Length(op)`: the instruction's length in bytes, a function of the opcode alone (R67, R77). -/
def instrLength (op : Byte) : Nat := 1 + operandCount op

/-- The absolute operand `b2 : b1`: the first operand byte is bits 7:0, the second bits 15:8 (R38, R68, R70). -/
def addrOfBytes (b1 b2 : Byte) : Addr := b2 ++ b1

/-- Bits 7:0 of an address, the first operand byte of format F3 (R68). -/
def addrLow (a : Addr) : Byte := a.extractLsb' 0 8

/-- Bits 15:8 of an address, the second operand byte of format F3 (R68). -/
def addrHigh (a : Addr) : Byte := a.extractLsb' 8 8

/-- `Decode(op)` with the operand bytes put in (R72, R80). It is total; a format without an operand byte ignores the
byte given for it (R68). -/
def instrOfBytes (op b1 b2 : Byte) : Instr :=
  if op = 0xA9 then .ldaImm b1
  else if op = 0x4A then .lsrAcc
  else if op = 0x46 then .lsrZp b1
  else if op = 0x56 then .lsrZpX b1
  else if op = 0x4E then .lsrAbs (addrOfBytes b1 b2)
  else if op = 0x5E then .lsrAbsX (addrOfBytes b1 b2)
  else .nopUnassigned op

/-- Operand byte `k` of a list of operand bytes; a format without that byte does not use it. -/
def operandByte (operands : List Byte) (k : Nat) : Byte := operands.getD k 0

/-- Why a byte list holds no whole instruction. -/
inductive DecodeError where
  /-- There is no opcode byte. Safe: nothing is decoded. -/
  | noOpcode
  /-- The list ends before the last operand byte of the opcode's format. Safe: nothing is decoded. -/
  | missingOperand (op : Byte)
deriving DecidableEq, Repr

/-- Read one instruction from the front of a byte list, in increasing address order, and give the bytes after it
(R67, R71). -/
def decode : List Byte → Except DecodeError (Instr × List Byte)
  | [] => .error .noOpcode
  | op :: rest =>
    if rest.length < operandCount op then .error (.missingOperand op)
    else .ok (instrOfBytes op (operandByte rest 0) (operandByte rest 1), rest.drop (operandCount op))

/-- The opcode byte of an instruction (R72, R75). -/
def Instr.opcode : Instr → Byte
  | .ldaImm _ => 0xA9
  | .lsrAcc => 0x4A
  | .lsrZp _ => 0x46
  | .lsrZpX _ => 0x56
  | .lsrAbs _ => 0x4E
  | .lsrAbsX _ => 0x5E
  | .nopUnassigned op => op

/-- The operand bytes of an instruction, lowest address first (R68). -/
def Instr.operands : Instr → List Byte
  | .ldaImm imm8 => [imm8]
  | .lsrAcc => []
  | .lsrZp zp => [zp]
  | .lsrZpX zp => [zp]
  | .lsrAbs addr => [addrLow addr, addrHigh addr]
  | .lsrAbsX base => [addrLow base, addrHigh base]
  | .nopUnassigned _ => []

/-- The bytes of an instruction: the opcode byte, then its operand bytes (R67). -/
def encode (i : Instr) : List Byte := i.opcode :: i.operands

/-- The three bytes of an instruction given as a number in opcode_table.json's numbering: bits 7:0 are the first byte,
and every bit from `nbits` up is 0. Three bytes are the longest instruction (R68). -/
def tableWordBytes (nbits w : Nat) : List Byte :=
  let v := w % 2 ^ nbits
  [BitVec.ofNat 8 v, BitVec.ofNat 8 (v / 256), BitVec.ofNat 8 (v / 65536)]

/-- The instruction the decoder reads from a word in the opcode table's numbering. -/
def decodeTableWord (nbits w : Nat) : Option Instr :=
  match decode (tableWordBytes nbits w) with
  | .ok (i, _) => some i
  | .error _ => none

end Sys2Proof
end

