-- ==== Sys2Proof/Config.lean ====
section
/-! DEFINITION. The fixed parameters of the hardware (R5) and the named open parameter `InitRegs` (R6). The other open parameter, `MapperIdFn`, is an argument of the load step in Machine/Cartridge.lean. -/

namespace Sys2Proof.Config

/-- The size of the one address space (R5, R28, R33). -/
abbrev addressSpaceBytes : Nat := 65536

/-- The address-space upper bound: the highest address an instruction byte can be fetched from (R17, R81). -/
abbrev lastAddress : Nat := 0xFFFF

/-- PRG_BASE, the fixed program-ROM base address and the entry address of `run` (R56, R81). -/
abbrev prgBase : Nat := 0x8000

/-- The parameter `InitRegs` (R6, R124, decision D3): what A, X, Y, SP and the eight flags hold when a session is
created. The spec states no value for any of them, so the load step takes them as an argument. -/
structure InitRegs where
  a : Byte
  x : Byte
  y : Byte
  sp : Byte
  flagC : Bool
  flagZ : Bool
  flagI : Bool
  flagD : Bool
  flagB : Bool
  flagU : Bool
  flagV : Bool
  flagN : Bool
deriving DecidableEq, Repr

/-- The values `State.reset` fixes for the open parameter. DESIGN CHOICE, unsafe (log entry 1): the spec gives none;
95_test_vectors.md takes all zero where a vector names none. -/
def resetRegs : InitRegs where
  a := 0
  x := 0
  y := 0
  sp := 0
  flagC := false
  flagZ := false
  flagI := false
  flagD := false
  flagB := false
  flagU := false
  flagV := false
  flagN := false

end Sys2Proof.Config
end

