-- ==== Sys2Proof/Machine/State.lean ====
section
/-! DEFINITION. The state of a session (10_state.md R30), the reasons a step can stop, and the state right after reset. -/

namespace Sys2Proof.Machine

/-- The flag record: eight booleans, never a packed byte (R18, R19). -/
structure Flags where
  c : Bool
  z : Bool
  i : Bool
  d : Bool
  b : Bool
  u : Bool
  v : Bool
  n : Bool
deriving DecidableEq, Repr

/-- The run status `RS` (R26). -/
inductive RunStatus where
  | running
  | normalTermination
  | addressRangeError
deriving DecidableEq, Repr

/-- What the fault record `FA` holds after an `AddressRangeError`: the address whose operand fetch failed and the opcode
of the failing instruction (R27). -/
structure FaultRecord where
  addr : ExtPc
  opcode : Byte
deriving DecidableEq, Repr

/-- The array `M[0..65535]` (R28, R32) as the list of its non-zero bytes by rising address. -/
abbrev Memory := List Host.Cell

/-- What an address that the list does not name reads as: construction zero-fills the space (R35). -/
def Memory.unlisted : Byte := 0x00

/-- One session (R30): CpuRegisters, the run status and fault record, and MemoryBus. -/
structure State where
  a : Byte
  x : Byte
  y : Byte
  sp : Byte
  pc : ExtPc
  f : Flags
  rs : RunStatus
  fa : Option FaultRecord
  mem : Memory
  mapperId : Byte
  prgBytes : Nat
  chrBytes : Nat
deriving DecidableEq, Repr

/-- Why a step stops. No instruction's meaning raises one: each says that `Step()` is not enabled (R82). -/
inductive Fault where
  /-- Raised by `step` in a state with `RS = NormalTermination`, which is final (R26, R106). Safe. -/
  | runEndedNormally
  /-- Raised by `step` in a state with `RS = AddressRangeError`, which has no further step (R26, R107). Safe. -/
  | runEndedByAddressRange
  /-- Raised by `step` with `RS = Running` and `pc > 0xFFFF`, where R82's precondition fails. No run reaches it (R85).
  Safe. -/
  | stepNotEnabled
deriving DecidableEq, Repr

/-- Why a step is refused. -/
inductive Refusal where
  /-- Raised by an arm of `exec` whose instruction has no meaning yet; this model has no such arm. Safe. -/
  | notModelled (mnemonic : String)
deriving DecidableEq, Repr

/-- The machine right after reset: the session of R31 before any PRG-ROM is projected. The hardware has no reset input
(N25); this is the session of a load that copies nothing (R59, decision D16; log entry 2). A, X, Y, SP and the flags are
`Config.resetRegs` (log entry 1); every other field is the spec's. -/
def State.reset : State where
  a := Config.resetRegs.a
  x := Config.resetRegs.x
  y := Config.resetRegs.y
  sp := Config.resetRegs.sp
  pc := BitVec.ofNat 17 Config.prgBase
  f :=
    { c := Config.resetRegs.flagC, z := Config.resetRegs.flagZ, i := Config.resetRegs.flagI, d := Config.resetRegs.flagD
      b := Config.resetRegs.flagB, u := Config.resetRegs.flagU, v := Config.resetRegs.flagV, n := Config.resetRegs.flagN }
  rs := .running
  fa := none
  mem := []
  mapperId := 0
  prgBytes := 0
  chrBytes := 0

end Sys2Proof.Machine
end

