-- ==== Sys2Proof/Machine/Flags.lean ====
section
/-! DEFINITION. Flag writes, one flag at a time (10_state.md R19), and the flag computation of each instruction that
writes flags (R20). -/

namespace Sys2Proof.Machine

/-- `F.C <- v`; the other seven flags stay (R19). -/
def Flags.setC (f : Flags) (v : Bool) : Flags := { f with c := v }

/-- `F.Z <- v`; the other seven flags stay (R19). -/
def Flags.setZ (f : Flags) (v : Bool) : Flags := { f with z := v }

/-- `F.N <- v`; the other seven flags stay (R19). -/
def Flags.setN (f : Flags) (v : Bool) : Flags := { f with n := v }

/-- The flags after LDA immediate (R94): Z says whether the byte is 0, N is its bit 7. -/
def Flags.afterLoad (f : Flags) (v : Byte) : Flags := (f.setZ (v == 0)).setN (v.getLsbD 7)

/-- The 8-bit logical shift right by one: `r[6:0] = v[7:1]`, `r[7] = 0` (R96). -/
def lsrResult (v : Byte) : Byte := v >>> 1

/-- The flags after LSR of operand `v` (R96): C is the bit shifted out, Z says whether the result is 0, N is 0. -/
def Flags.afterLsr (f : Flags) (v : Byte) : Flags :=
  ((f.setC (v.getLsbD 0)).setZ (lsrResult v == 0)).setN false

end Sys2Proof.Machine
end

