-- ==== Sys2Proof/Machine/Operands.lean ====
section
/-! DEFINITION. The effective address of each memory addressing mode (30_encoding.md R70). The immediate and accumulator
modes have no address: their operand is the byte itself and `A`. -/

namespace Sys2Proof.Machine

/-- zero page: `ea = zext_16(b1)` (R70, R98). -/
def eaZp (zp : Byte) : Addr := zp.setWidth 16

/-- zero page indexed: `ea = zext_16((b1 + X) mod 256)`, wrapping inside 0x00 to 0xFF (R70, R99). -/
def eaZpX (zp x : Byte) : Addr := (zp + x).setWidth 16

/-- absolute: `ea = b2 : b1`, the address as the decoder assembled it (R70, R100). -/
def eaAbs (addr : Addr) : Addr := addr

/-- absolute indexed: `ea = (b2 : b1 + X) mod 65536`, wrapping at 16 bits (R70, R101). -/
def eaAbsX (base : Addr) (x : Byte) : Addr := base + x.setWidth 16

end Sys2Proof.Machine
end

