-- ==== Sys2Proof/Machine/Ops.lean ====
section
/-! DEFINITION. The named operations over memory and registers: the canonical memory list, `readByte` and `writeByte`
(20_memory.md R36, R37), `FetchByte` and the operand fetches (40_fetch_decode.md R84), raising `AddressRangeError`
(R86), the termination check (R87) and `LsrCore` (42_shift.md R96). The hardware has no trap entry and no return from
one (R113, R115): raising `AddressRangeError` is its one exception, and it saves nothing but `FA`. -/

namespace Sys2Proof.Machine

/-- The byte the list holds at an address (R36). -/
def Memory.read : Memory → Nat → Byte
  | [], _ => Memory.unlisted
  | (b, w) :: m, a => if a = b then w else Memory.read m a

/-- Put an entry in front of a list, unless its value is what an unlisted address reads as. -/
def Memory.consCell (a : Nat) (v : Byte) (m : Memory) : Memory :=
  if v = Memory.unlisted then m else (a, v) :: m

/-- Store a byte and keep the list canonical (R37). -/
def Memory.write : Memory → Nat → Byte → Memory
  | [], a, v => Memory.consCell a v []
  | (b, w) :: m, a, v =>
    if a < b then Memory.consCell a v ((b, w) :: m)
    else if a = b then Memory.consCell a v m
    else (b, w) :: Memory.write m a v

/-- The canonical form from address `lo` up: addresses strictly rising and inside the space, no entry that equals an
unlisted byte. -/
def Memory.wfFrom : Nat → Memory → Bool
  | _, [] => true
  | lo, (a, v) :: m =>
    decide (lo ≤ a) && decide (a < Config.addressSpaceBytes) && decide (v ≠ Memory.unlisted) && Memory.wfFrom (a + 1) m

/-- The canonical form of memory. -/
def Memory.wf (m : Memory) : Bool := Memory.wfFrom 0 m

/-- Store consecutive bytes in increasing address order from `a` up: the copy loops of the load step (R57, R58). -/
def Memory.writeBytes : Memory → Nat → List Byte → Memory
  | m, _, [] => m
  | m, a, b :: bs => Memory.writeBytes (m.write a b) (a + 1) bs

/-- `x[A] <- v` (R8). -/
def State.setA (s : State) (v : Byte) : State := { s with a := v }

/-- `pc <- v` (R8). -/
def State.setPc (s : State) (v : ExtPc) : State := { s with pc := v }

/-- Replace the flag record by one that a flag computation of Flags.lean gives. -/
def State.setF (s : State) (f : Flags) : State := { s with f := f }

/-- `RS <- v` (R26). -/
def State.setRs (s : State) (v : RunStatus) : State := { s with rs := v }

/-- `FA <- v` (R27). -/
def State.setFa (s : State) (v : Option FaultRecord) : State := { s with fa := v }

/-- Replace the memory array. -/
def State.setMem (s : State) (m : Memory) : State := { s with mem := m }

/-- `MemRead(addr, 1)`: the byte at `addr mod 65536`; it never fails and changes nothing (R36). -/
def State.readByte (s : State) (addr : Nat) : Byte := s.mem.read (addr % Config.addressSpaceBytes)

/-- `MemWrite(addr, 1, v)`: store `v` at `addr mod 65536`; it never fails, and no address is write-protected
(R34, R37, R63). -/
def State.writeByte (s : State) (addr : Nat) (v : Byte) : State :=
  s.setMem (s.mem.write (addr % Config.addressSpaceBytes) v)

/-- `FetchByte()`: read at `pc` and advance `pc` by exactly one, with no wrap; past the upper bound it raises, and the
answer `error` carries the state unchanged (R84). -/
def fetchByte (s : State) : Except State (Byte × State) :=
  if Config.lastAddress < s.pc.toNat then .error s
  else .ok (s.readByte s.pc.toNat, s.setPc (s.pc + 1))

/-- That many operand fetches in order, stopping at the first that raises (R71, R84). -/
def fetchOperands : Nat → State → Except State (List Byte × State)
  | 0, s => .ok ([], s)
  | k + 1, s =>
    match fetchByte s with
    | .error e => .error e
    | .ok (b, s1) =>
      match fetchOperands k s1 with
      | .error e => .error e
      | .ok (bs, s2) => .ok (b :: bs, s2)

/-- Fetch the operand bytes that the opcode's format has and assemble the instruction. Every handler fetches all its
operand bytes before it reads or writes anything else (R86), so the fetches may stand before the handler (log entry 5). -/
def fetchInstr (op : Byte) (s : State) : Except State (Instr × State) :=
  match fetchOperands (operandCount op) s with
  | .error e => .error e
  | .ok (bs, s1) => .ok (instrOfBytes op (operandByte bs 0) (operandByte bs 1), s1)

/-- `raise AddressRangeError(addr = pc)` by an operand fetch of the instruction with opcode `op`: the run status and
the fault record are written and nothing else (R86, R107). -/
def raiseAddressRangeError (op : Byte) (s : State) : State :=
  (s.setRs .addressRangeError).setFa (some { addr := s.pc, opcode := op })

/-- The check after an instruction that did not raise: a running session whose `pc` has passed the upper bound ends
normally, and nothing else changes (R87, R88). -/
def terminationCheck (s : State) : State :=
  if s.rs = .running ∧ Config.lastAddress < s.pc.toNat then s.setRs .normalTermination else s

/-- Why `Step()` is not enabled in a state by its run status (R26, R82, R106, R107). -/
def endedFault (s : State) : Option Fault :=
  match s.rs with
  | .running => none
  | .normalTermination => some .runEndedNormally
  | .addressRangeError => some .runEndedByAddressRange

/-- `LsrCore(v)`: the flags of LSR are written and the shifted byte is given back (R96). -/
def lsrCore (v : Byte) (s : State) : Byte × State := (lsrResult v, s.setF (s.f.afterLsr v))

/-- LSR of the byte at `ea`: one read, then one write of the same address (R96, R98 to R102). -/
def lsrMemory (ea : Addr) (s : State) : State :=
  let r := lsrCore (s.readByte ea.toNat) s
  r.2.writeByte ea.toNat r.1

end Sys2Proof.Machine
end

