-- ==== Sys2Proof/Machine/Load.lean ====
section
/-! DEFINITION. The load instruction (41_load.md). -/

namespace Sys2Proof.Machine

/-- LDA immediate (R94): A takes the operand byte, Z and N follow it. -/
def execLdaImm (imm8 : Byte) (s : State) : Host.Outcome State Fault Refusal :=
  .next ((s.setA imm8).setF (s.f.afterLoad imm8))

end Sys2Proof.Machine
end

