-- ==== Sys2Proof/Machine/Shift.lean ====
section
/-! DEFINITION. The shift instruction LSR in its five forms (42_shift.md). The opcode's addressing mode, never the
operand's value, selects the form (R71). -/

namespace Sys2Proof.Machine

/-- LSR A (R97): the operand and the destination are the accumulator. -/
def execLsrAcc (s : State) : Host.Outcome State Fault Refusal :=
  let r := lsrCore s.a s
  .next (r.2.setA r.1)

/-- LSR zp (R98). -/
def execLsrZp (zp : Byte) (s : State) : Host.Outcome State Fault Refusal :=
  .next (lsrMemory (eaZp zp) s)

/-- LSR zp,X (R99). -/
def execLsrZpX (zp : Byte) (s : State) : Host.Outcome State Fault Refusal :=
  .next (lsrMemory (eaZpX zp s.x) s)

/-- LSR abs (R100). -/
def execLsrAbs (addr : Addr) (s : State) : Host.Outcome State Fault Refusal :=
  .next (lsrMemory (eaAbs addr) s)

/-- LSR abs,X (R101). -/
def execLsrAbsX (base : Addr) (s : State) : Host.Outcome State Fault Refusal :=
  .next (lsrMemory (eaAbsX base s.x) s)

end Sys2Proof.Machine
end

