-- ==== Sys2Proof/Machine/Unassigned.lean ====
section
/-! DEFINITION. The one-byte no-op of the 250 unassigned opcodes (40_fetch_decode.md R83). -/

namespace Sys2Proof.Machine

/-- NOP_UNASSIGNED (R83): `skip`, whatever the opcode is; the opcode fetch has already advanced `pc`. -/
def execNopUnassigned (_op : Byte) (s : State) : Host.Outcome State Fault Refusal := .next s

end Sys2Proof.Machine
end

