-- ==== Sys2Proof/Machine/Dispatch.lean ====
section
/-! DEFINITION. The dispatch: a total map from instruction to meaning (40_fetch_decode.md R82). -/

namespace Sys2Proof.Machine

def exec (i : Instr) (s : State) : Host.Outcome State Fault Refusal :=
  match i with
  | .ldaImm imm8 => Sys2Proof.Machine.execLdaImm imm8 s
  | .lsrAcc => Sys2Proof.Machine.execLsrAcc s
  | .lsrZp zp => Sys2Proof.Machine.execLsrZp zp s
  | .lsrZpX zp => Sys2Proof.Machine.execLsrZpX zp s
  | .lsrAbs addr => Sys2Proof.Machine.execLsrAbs addr s
  | .lsrAbsX base => Sys2Proof.Machine.execLsrAbsX base s
  | .nopUnassigned op => Sys2Proof.Machine.execNopUnassigned op s

end Sys2Proof.Machine
end

