-- ==== Sys2Proof/Machine/Step.lean ====
section
/-! DEFINITION. One step of CpuCore: one whole instruction (40_fetch_decode.md R82). -/

namespace Sys2Proof.Machine

/-- `Step()` (R82): the opcode fetch, the operand fetches, the instruction, the termination check. An operand fetch past
the upper bound ends the step at once with `AddressRangeError` and no termination check (R86, R112). -/
def step (s : State) : Host.Outcome State Fault Refusal :=
  match endedFault s with
  | some e => .fault e
  | none =>
    match fetchByte s with
    | .error _ => .fault .stepNotEnabled
    | .ok (op, s1) =>
      match fetchInstr op s1 with
      | .error s2 => .next (raiseAddressRangeError op s2)
      | .ok (i, s2) =>
        match exec i s2 with
        | .next s3 => .next (terminationCheck s3)
        | .fault e => .fault e
        | .refused r => .refused r

/-- `s` with an instruction word of the opcode table stored at `pc`: three bytes (the longest instruction), less any that
would lie past the end of the space. In a running session with `pc ≤ 0xFFFD` the next step runs that instruction. A
program comes into memory by the load step of Machine/Cartridge.lean, and this stands for that load (log entry 3). -/
def State.withFetchWord (s : State) (nbits w : Nat) : State :=
  s.setMem
    (s.mem.writeBytes s.pc.toNat ((tableWordBytes nbits w).take (Config.addressSpaceBytes - s.pc.toNat)))

end Sys2Proof.Machine
end

