-- ==== Sys2Proof/Machine/Cartridge.lean ====
section
/-! DEFINITION. HeaderParser, the load step and session construction (20_memory.md sections 4 and 5, 60_exceptions.md
R105 to R111, 70_reset_and_hazards.md R121 to R125). The load step runs once, before the first step of CpuCore, and is no
agent that interleaves with it (R11); so it is a function from the image to a session or a load refusal. -/

namespace Sys2Proof.Machine

/-- The 16-byte cartridge header (R46). -/
structure Header where
  sig : Vector Byte 4
  prgUnits : Byte
  chrUnits : Byte
  flags6 : Byte
  flags7 : Byte
  flags8 : Byte
  flags9 : Byte
  flags10 : Byte
  padding : Vector Byte 5
deriving DecidableEq, Repr

/-- The three causes of `FormatError` (R105). -/
inductive FormatError where
  /-- The image has fewer than 16 bytes (R47). -/
  | truncated
  /-- Bytes 0 to 2 are not the token (R49). -/
  | signatureMismatch
  /-- Byte 3 is not the sentinel (R50). -/
  | missingEofMarker
deriving DecidableEq, Repr

/-- The load refusals with what each records (R105). No session exists after one (R110). -/
inductive LoadRefusal where
  | formatError (e : FormatError)
  | unsupportedMapper (mapperId : Byte)
  | prgOversize (prgBytes : Nat)
  | payloadTruncated (imageLength : Nat)
deriving DecidableEq, Repr

/-- MemoryBus: the address space and the metadata recorded at load (R28). -/
structure Bus where
  mem : Memory
  mapperId : Byte
  prgBytes : Nat
  chrBytes : Nat
deriving DecidableEq, Repr

/-- The header's size (R5, R46). -/
def headerBytes : Nat := 16

/-- One PRG-ROM bank (R5, R53). -/
def prgUnitBytes : Nat := 16384

/-- One CHR-ROM bank (R5, R53). -/
def chrUnitBytes : Nat := 8192

/-- The bytes from PRG_BASE to the end of the space: the largest PRG-ROM mapper 0 can place (R59). -/
def prgCapacity : Nat := 32768

/-- Byte `i` of the image (R45). -/
def imageByte (img : List Byte) (i : Nat) : Byte := img.getD i 0

/-- `parseHeader(img)`: it fails only on an image of fewer than 16 bytes (R47). -/
def parseHeader (img : List Byte) : Except LoadRefusal Header :=
  if img.length < headerBytes then .error (.formatError .truncated)
  else .ok
    { sig := #v[imageByte img 0, imageByte img 1, imageByte img 2, imageByte img 3]
      prgUnits := imageByte img 4
      chrUnits := imageByte img 5
      flags6 := imageByte img 6
      flags7 := imageByte img 7
      flags8 := imageByte img 8
      flags9 := imageByte img 9
      flags10 := imageByte img 10
      padding := #v[imageByte img 11, imageByte img 12, imageByte img 13, imageByte img 14, imageByte img 15] }

/-- `validate(header)`: the signature token "NES" first, then the sentinel 0x1A; no other byte is checked (R49 to
R51). -/
def validate (h : Header) : Except LoadRefusal Unit :=
  if ¬(h.sig[0] = 0x4E ∧ h.sig[1] = 0x45 ∧ h.sig[2] = 0x53) then .error (.formatError .signatureMismatch)
  else if h.sig[3] ≠ 0x1A then .error (.formatError .missingEofMarker)
  else .ok ()

/-- `deriveMapperId(header)`, the default of the parameter `MapperIdFn` (R52). -/
def deriveMapperId (h : Header) : Byte := (h.flags6 >>> 4) ||| (h.flags7 &&& 0xF0)

/-- `deriveRomSizes(header)`: `(prgBytes, chrBytes)` (R53). -/
def deriveRomSizes (h : Header) : Nat × Nat := (h.prgUnits.toNat * prgUnitBytes, h.chrUnits.toNat * chrUnitBytes)

/-- `construct(65536)`: the zero-initialised space (R33, R35). -/
def construct : Memory := []

/-- The first `n` bytes of the PRG-ROM payload, which starts right after the header (R45, R54). -/
def prgPayload (img : List Byte) (n : Nat) : List Byte := (img.drop headerBytes).take n

/-- The mapper-0 projection: the payload at PRG_BASE, and a copy of a one-bank payload in the bank after it
(R57, R58). -/
def projectPrg (prgBytes : Nat) (img : List Byte) (m : Memory) : Memory :=
  let m1 := m.writeBytes Config.prgBase (prgPayload img prgBytes)
  if prgBytes = prgUnitBytes then m1.writeBytes (Config.prgBase + prgUnitBytes) (prgPayload img prgUnitBytes) else m1

/-- `loadProgram(mapperId, prgBytes, rawImage)` on the constructed space, its checks in the order of R61 and R111. -/
def loadProgram (mapperId : Byte) (prgBytes : Nat) (img : List Byte) (m : Memory) : Except LoadRefusal Memory :=
  if mapperId ≠ 0 then .error (.unsupportedMapper mapperId)
  else if prgCapacity < prgBytes then .error (.prgOversize prgBytes)
  else if img.length < headerBytes + prgBytes then .error (.payloadTruncated img.length)
  else .ok (projectPrg prgBytes img m)

/-- `Load(img)`: the load step, for any `MapperIdFn` (R6, R111). The first check that fails is the one reported. -/
def loadImage (mapperIdFn : Header → Byte) (img : List Byte) : Except LoadRefusal Bus :=
  match parseHeader img with
  | .error r => .error r
  | .ok h =>
    match validate h with
    | .error r => .error r
    | .ok () =>
      match loadProgram (mapperIdFn h) (deriveRomSizes h).1 img construct with
      | .error r => .error r
      | .ok m =>
        .ok { mem := m, mapperId := mapperIdFn h, prgBytes := (deriveRomSizes h).1, chrBytes := (deriveRomSizes h).2 }

/-- CpuRegisters created on a loaded bus: A, X, Y, SP and the flags from `InitRegs`, `pc` at PRG_BASE, the status
`Running`, no fault record (R31, R124). -/
def createSession (init : Config.InitRegs) (bus : Bus) : State where
  a := init.a
  x := init.x
  y := init.y
  sp := init.sp
  pc := BitVec.ofNat 17 Config.prgBase
  f :=
    { c := init.flagC, z := init.flagZ, i := init.flagI, d := init.flagD
      b := init.flagB, u := init.flagU, v := init.flagV, n := init.flagN }
  rs := .running
  fa := none
  mem := bus.mem
  mapperId := bus.mapperId
  prgBytes := bus.prgBytes
  chrBytes := bus.chrBytes

/-- From the image to a session about to run, or to the refusal code alone (R110, R123 to R125). -/
def boot (mapperIdFn : Header → Byte) (init : Config.InitRegs) (img : List Byte) : Except LoadRefusal State :=
  match loadImage mapperIdFn img with
  | .error r => .error r
  | .ok bus => .ok (createSession init bus)

end Sys2Proof.Machine
end

