-- ==== Sys2Proof/Machine/Run.lean ====
section
/-! DEFINITION. The run (40_fetch_decode.md R81): steps repeated until the run status leaves `Running`, and the host's view
of a whole session (70_reset_and_hazards.md R131 to R133). -/

namespace Sys2Proof.Machine

/-- Exactly `k` steps, stopping at the first that gives no next state. -/
def stepN : Nat → State → Host.Outcome State Fault Refusal
  | 0, s => .next s
  | k + 1, s =>
    match step s with
    | .next t => stepN k t
    | .fault e => .fault e
    | .refused r => .refused r

/-- The entry of `run`: `pc` at PRG_BASE and the status `Running`, nothing else changed (R81). -/
def enterRun (s : State) : State := (s.setPc (BitVec.ofNat 17 Config.prgBase)).setRs .running

/-- `while RS = Running: Step()`, for at most the given number of steps (R81). -/
def runFor : Nat → State → State
  | 0, s => s
  | k + 1, s =>
    match s.rs with
    | .running =>
      match step s with
      | .next t => runFor k t
      | .fault _ => s
      | .refused _ => s
    | .normalTermination => s
    | .addressRangeError => s

/-- The most steps a run from PRG_BASE can take (R89). -/
def maxRunSteps : Nat := 32768

/-- `run()`: the final state, which is all the host reads back (R81, R132, R133). R89 says that the bound is never what
ends the loop. -/
def run (s : State) : State := runFor maxRunSteps (enterRun s)

/-- The host's two interactions in their order, load and then run: the refusal alone, or the final state, whose `rs` is
the run outcome (R110, R125, R131). -/
def loadAndRun (mapperIdFn : Header → Byte) (init : Config.InitRegs) (img : List Byte) : Except LoadRefusal State :=
  match boot mapperIdFn init img with
  | .error r => .error r
  | .ok s => .ok (run s)

end Sys2Proof.Machine
end

