-- ==== Sys2Proof/Safety.lean ====
section
/-! DEFINITION. The terms that claims use: what a legal session is, the bytes of the instruction at `pc`, and the state
that is never written. -/

namespace Sys2Proof.Machine

/-- `PC = pc[15:0]` (R15). -/
def State.pc16 (s : State) : Addr := s.pc.setWidth 16

/-- `PCX = pc[16]`, the incrementer's carry-out (R15, R24). -/
def State.pcx (s : State) : Bool := s.pc.getLsbD 16

/-- The bus metadata a successful load can record (R53, R59, R61). -/
structure State.BusLegal (s : State) : Prop where
  mapper : s.mapperId = 0
  prg : s.prgBytes = 0 ∨ s.prgBytes = 16384 ∨ s.prgBytes = 32768
  chr : ∃ units : Nat, units < 256 ∧ s.chrBytes = units * 8192

/-- The states of a session: `pc` is in range exactly while the run goes on (R15, R17), the fault record is filled
exactly by `AddressRangeError`, with an opcode that has operand bytes (R27, R86), memory is canonical, and the metadata
is what a load records. -/
structure State.Legal (s : State) : Prop where
  runningPc : s.rs = .running → s.pc.toNat ≤ 0xFFFF
  endedPc : s.rs ≠ .running → s.pc.toNat = 0x10000
  noFault : s.rs ≠ .addressRangeError → s.fa = none
  fault : s.rs = .addressRangeError → ∃ op : Byte, operandCount op ≠ 0 ∧ s.fa = some { addr := 0x10000, opcode := op }
  memory : s.mem.wf = true
  bus : s.BusLegal

/-- `n` consecutive bytes of memory from the address in `pc` up. -/
def State.bytesAtPc (s : State) (n : Nat) : List Byte := (List.range n).map fun k => s.readByte (s.pc.toNat + k)

/-- The opcode byte at `pc`. -/
def State.opcodeAtPc (s : State) : Byte := s.readByte s.pc.toNat

/-- The instruction that the bytes from `pc` up are: its opcode byte at `pc`, its operand bytes right after (R67). -/
def State.instrAtPc (s : State) : Instr :=
  instrOfBytes s.opcodeAtPc (s.readByte (s.pc.toNat + 1)) (s.readByte (s.pc.toNat + 2))

/-- The state with `pc` moved past `n` instruction bytes. -/
def State.advancePc (s : State) (n : Nat) : State := s.setPc (s.pc + BitVec.ofNat 17 n)

/-- Two states hold the same values of everything that no instruction writes: X, Y, SP, the flags I, D, B, U and V, and
the bus metadata (R14, R20, R21, R28). -/
structure State.SameInert (s t : State) : Prop where
  x : t.x = s.x
  y : t.y = s.y
  sp : t.sp = s.sp
  flagI : t.f.i = s.f.i
  flagD : t.f.d = s.f.d
  flagB : t.f.b = s.f.b
  flagU : t.f.u = s.f.u
  flagV : t.f.v = s.f.v
  mapperId : t.mapperId = s.mapperId
  prgBytes : t.prgBytes = s.prgBytes
  chrBytes : t.chrBytes = s.chrBytes

/-- Two states hold the same values of everything that an instruction or the loop reads: A, X, `pc`, the run status and
memory (R14, R20). -/
structure State.SameRead (s t : State) : Prop where
  a : t.a = s.a
  x : t.x = s.x
  pc : t.pc = s.pc
  rs : t.rs = s.rs
  mem : t.mem = s.mem

end Sys2Proof.Machine
end

