-- ==== Sys2Proof/Certificates/Slice0/Obligations.lean ====
section
/-! DEFINITION. The statements for the provers. Each docstring names the rule of spec/ it formalises, and the decision of
the spec (D<n>) or the log entry it rests on where it rests on one. -/

open Sys2Proof Sys2Proof.Machine

namespace Sys2Proof.Claims

/-- The flags LSR leaves for an operand `v` (R96; N is decision D7). -/
def LsrFlags (v : Byte) (f : Flags) : Prop :=
  (f.c = true ↔ v.toNat % 2 = 1) ∧ (f.z = true ↔ v.toNat / 2 = 0) ∧ f.n = false

/-- `i` completes in `s` and halves the byte at `ea` in place. -/
def ShiftsByteAt (i : Instr) (ea : Addr) (s : State) : Prop :=
  ∃ t, exec i s = .next t ∧ (t.readByte ea.toNat).toNat = (s.readByte ea.toNat).toNat / 2 ∧
    LsrFlags (s.readByte ea.toNat) t.f

/-- Whatever `i` leaves of `s` is `s` but for A, the flags C, Z and N, and memory. -/
def KeepsControl (s t : State) : Prop := s.SameInert t ∧ t.pc = s.pc ∧ t.rs = s.rs ∧ t.fa = s.fa

/-- `i` writes no state of `s` but the flags C, Z and N and the one byte at `ea`. -/
def WritesOnlyByteAt (i : Instr) (ea : Addr) (s : State) : Prop :=
  ∀ t, exec i s = .next t →
    KeepsControl s t ∧ t.a = s.a ∧ ∀ k : Nat, k % 65536 ≠ ea.toNat → t.readByte k = s.readByte k

/-- Bytes 0 to 2 of the image are the token "NES" (R49). -/
def HasToken (img : List Byte) : Prop := imageByte img 0 = 0x4E ∧ imageByte img 1 = 0x45 ∧ imageByte img 2 = 0x53

/-- The fields of State that no instruction reads: the fault record, Y, SP, the eight flags and the bus metadata (R14,
R20, R21, R27, R28). Each of them on which `s1` and `s2` agree, `t1` and `t2` agree on. -/
structure KeepsEveryAgreement (s1 s2 t1 t2 : State) : Prop where
  y : s2.y = s1.y → t2.y = t1.y
  sp : s2.sp = s1.sp → t2.sp = t1.sp
  flagC : s2.f.c = s1.f.c → t2.f.c = t1.f.c
  flagZ : s2.f.z = s1.f.z → t2.f.z = t1.f.z
  flagI : s2.f.i = s1.f.i → t2.f.i = t1.f.i
  flagD : s2.f.d = s1.f.d → t2.f.d = t1.f.d
  flagB : s2.f.b = s1.f.b → t2.f.b = t1.f.b
  flagU : s2.f.u = s1.f.u → t2.f.u = t1.f.u
  flagV : s2.f.v = s1.f.v → t2.f.v = t1.f.v
  flagN : s2.f.n = s1.f.n → t2.f.n = t1.f.n
  fa : s2.fa = s1.fa → t2.fa = t1.fa
  mapperId : s2.mapperId = s1.mapperId → t2.mapperId = t1.mapperId
  prgBytes : s2.prgBytes = s1.prgBytes → t2.prgBytes = t1.prgBytes
  chrBytes : s2.chrBytes = s1.chrBytes → t2.chrBytes = t1.chrBytes

/-- Two images agree on all that the load step reads under the default `MapperIdFn`: header bytes 0 to 5, the high nibbles
of bytes 6 and 7, the PRG-ROM payload (R45, R54), and the length only where an image is too short to hold that payload
(R60). So one may have CHR-ROM or other bytes after the payload that the other lacks (R64). -/
def SameLoadInput (img img' : List Byte) : Prop :=
  (img.length = img'.length ∨ (16 + (imageByte img 4).toNat * 16384 ≤ img.length ∧
    16 + (imageByte img 4).toNat * 16384 ≤ img'.length)) ∧
  (∀ i : Nat, i < 6 → imageByte img i = imageByte img' i) ∧
  (imageByte img 6).toNat / 16 = (imageByte img' 6).toNat / 16 ∧
  (imageByte img 7).toNat / 16 = (imageByte img' 7).toNat / 16 ∧
  ∀ i : Nat, i < (imageByte img 4).toNat * 16384 → imageByte img (16 + i) = imageByte img' (16 + i)

end Sys2Proof.Claims

open Sys2Proof.Claims

/-! ## The load instruction -/

/-- R94's pseudocode: A takes the operand byte, Z says whether it is 0, N is its bit 7. LDA immediate always completes
once its operand is fetched. -/
def Obligations.LdaImmLoadsAccumulatorAndSetsZN : Prop :=
  ∀ (imm8 : Byte) (s : State), ∃ t, exec (.ldaImm imm8) s = .next t ∧ t.a = imm8 ∧
    (t.f.z = true ↔ imm8.toNat = 0) ∧ (t.f.n = true ↔ 128 ≤ imm8.toNat)

/-- The frame of LDA immediate: nothing but A, Z and N (R94; that C stays is decision D8). -/
def Obligations.LdaImmWritesOnlyAZN : Prop :=
  ∀ (imm8 : Byte) (s t : State), exec (.ldaImm imm8) s = .next t →
    KeepsControl s t ∧ t.f.c = s.f.c ∧ ∀ k : Nat, t.readByte k = s.readByte k

/-! ## The shift instruction -/

/-- R96 and R97: LSR A halves A, C is the bit shifted out, Z says whether the result is 0; N = 0 is decision D7. -/
def Obligations.LsrAccShiftsAccumulator : Prop :=
  ∀ s : State, ∃ t, exec .lsrAcc s = .next t ∧ t.a.toNat = s.a.toNat / 2 ∧ LsrFlags s.a t.f

/-- The frame of LSR A: nothing but A, C, Z and N (R97; the other flags are decision D8). -/
def Obligations.LsrAccWritesOnlyACZN : Prop :=
  ∀ s t : State, exec .lsrAcc s = .next t → KeepsControl s t ∧ ∀ k : Nat, t.readByte k = s.readByte k

/-- R96 and R98 to R101: each memory form halves the byte at its effective address in place and sets C and Z from it;
N = 0 is decision D7, the modes are decision D5. -/
def Obligations.LsrMemoryFormsShiftTheByteAtTheirAddress : Prop :=
  ∀ (zp : Byte) (addr : Addr) (s : State), s.mem.wf = true →
    ShiftsByteAt (.lsrZp zp) (eaZp zp) s ∧ ShiftsByteAt (.lsrZpX zp) (eaZpX zp s.x) s ∧
    ShiftsByteAt (.lsrAbs addr) (eaAbs addr) s ∧ ShiftsByteAt (.lsrAbsX addr) (eaAbsX addr s.x) s

/-- The frame of the four memory forms: nothing but C, Z, N and the one byte at the effective address (R98 to R102; the
other flags are decision D8). -/
def Obligations.LsrMemoryFormsWriteOnlyOneByte : Prop :=
  ∀ (zp : Byte) (addr : Addr) (s : State), s.mem.wf = true →
    WritesOnlyByteAt (.lsrZp zp) (eaZp zp) s ∧ WritesOnlyByteAt (.lsrZpX zp) (eaZpX zp s.x) s ∧
    WritesOnlyByteAt (.lsrAbs addr) (eaAbs addr) s ∧ WritesOnlyByteAt (.lsrAbsX addr) (eaAbsX addr s.x) s

/-- R70's table as arithmetic on the operand bytes: zp,X wraps inside page 0, abs,X wraps at 16 bits, the absolute operand
is low byte first (decisions D5 and D6). -/
def Obligations.EffectiveAddressesFollowTheModeTable : Prop :=
  ∀ b1 b2 x : Byte,
    (eaZp b1).toNat = b1.toNat ∧
    (eaZpX b1 x).toNat = (b1.toNat + x.toNat) % 256 ∧
    (eaAbs (addrOfBytes b1 b2)).toNat = b1.toNat + 256 * b2.toNat ∧
    (eaAbsX (addrOfBytes b1 b2) x).toNat = (b1.toNat + 256 * b2.toNat + x.toNat) % 65536

/-! ## The unassigned opcodes -/

/-- R75: 250 opcode values are unassigned, each decodes as a one-byte no-op whatever follows it, and it is a no-op. -/
def Obligations.UnassignedOpcodesAreOneByteNoOps : Prop :=
  ((List.range 256).filter fun k => !assignedOpcodes.contains (BitVec.ofNat 8 k)).length = 250 ∧
  (0x00 : Byte) ∉ assignedOpcodes ∧
  ∀ (op : Byte) (rest : List Byte) (s : State), op ∉ assignedOpcodes →
    decode (op :: rest) = .ok (.nopUnassigned op, rest) ∧ exec (.nopUnassigned op) s = .next s

/-- R83: a whole step over an unassigned opcode advances `pc` by one and changes nothing else; at 0xFFFF it ends the run
normally (one byte and no operand is decision D9). -/
def Obligations.UnassignedOpcodeStepMovesPcOnly : Prop :=
  ∀ s : State, s.rs = .running → s.pc.toNat ≤ 0xFFFF → s.opcodeAtPc ∉ assignedOpcodes →
    step s = .next (if s.pc.toNat = 0xFFFF then { s with pc := 0x10000, rs := .normalTermination }
                    else { s with pc := s.pc + 1 })

/-! ## Memory -/

/-- R36: `readByte` gives the byte at `addr mod 65536`, whatever the address; it is a function of the state and the
address, so it never fails and changes nothing. -/
def Obligations.ReadByteMasksTheAddress : Prop :=
  ∀ (s : State) (addr : Nat),
    s.readByte addr = s.readByte (addr % 65536) ∧ (addr < 65536 → s.readByte addr = s.mem.read addr)

/-- R34 and R63: every address is readable and writable, the PRG-ROM range like any other. That a write address of 0x10000
or above means the byte at `addr mod 65536` is R37's decision D12 (log entry 19). The premise is the canonical form that
every step keeps. -/
def Obligations.EveryAddressIsReadableAndWritable : Prop :=
  ∀ (s : State) (addr : Nat) (v : Byte), s.mem.wf = true →
    (s.writeByte addr v).readByte addr = v

/-- R41: a write changes only the byte it addresses and nothing of the rest of the state, and writing twice is writing
once. A read gives no state, so it has no side effect. That the byte a write address of 0x10000 or above addresses is the
one at `addr mod 65536` is R37's decision D12 (log entry 19). -/
def Obligations.WriteChangesOneByteAndIsIdempotent : Prop :=
  ∀ (s : State) (addr : Nat) (v : Byte), s.mem.wf = true →
    (∀ k : Nat, k % 65536 ≠ addr % 65536 → (s.writeByte addr v).readByte k = s.readByte k) ∧
    (s.writeByte addr v).setMem s.mem = s ∧
    (s.writeByte addr v).writeByte addr v = s.writeByte addr v

/-- Every operation that writes memory keeps its canonical form (R28, R32; the form is log entry 6). -/
def Obligations.MemoryOperationsKeepCanonicalForm : Prop :=
  (∀ (s : State) (addr : Nat) (v : Byte), s.mem.wf = true → (s.writeByte addr v).mem.wf = true) ∧
  (∀ (m : Memory) (a : Nat) (bs : List Byte), m.wf = true → a + bs.length ≤ 65536 → (m.writeBytes a bs).wf = true)

/-- Two canonical memories that read alike at every address are equal data (R28; the form is log entry 6). -/
def Obligations.CanonicalMemoryIsFixedByItsBytes : Prop :=
  ∀ m n : Memory, m.wf = true → n.wf = true → (∀ a : Nat, a < 65536 → m.read a = n.read a) → m = n

/-- R43: a byte written at `pc` is the byte the next fetch reads. -/
def Obligations.WrittenByteIsTheNextFetch : Prop :=
  ∀ (s : State) (v : Byte), s.mem.wf = true → s.pc.toNat ≤ 0xFFFF →
    fetchByte (s.writeByte s.pc.toNat v) = .ok (v, (s.writeByte s.pc.toNat v).advancePc 1)

/-- R62: the mirror of a one-bank cartridge is a copy, so a write into one bank leaves the other as it was. -/
def Obligations.MirrorIsACopyNotAnAlias : Prop :=
  ∀ (s : State) (i j : Nat) (v : Byte), s.mem.wf = true → i < 16384 → j < 16384 →
    (s.writeByte (0x8000 + i) v).readByte (0xC000 + j) = s.readByte (0xC000 + j) ∧
    (s.writeByte (0xC000 + i) v).readByte (0x8000 + j) = s.readByte (0x8000 + j)

/-! ## Encoding -/

/-- Decoding the bytes of any well-formed instruction, with anything after them, gives it back and leaves what follows
(R67, R68, R72, R75). -/
def Obligations.DecodeOfEncodeIsTheInstruction : Prop :=
  ∀ (i : Instr) (rest : List Byte), i.wf = true → decode (encode i ++ rest) = .ok (i, rest)

/-- Whatever decodes is the encoding of a well-formed instruction: each byte sequence has one meaning (R67, R76). -/
def Obligations.EncodeOfDecodeIsTheBytes : Prop :=
  ∀ (bytes rest : List Byte) (i : Instr), decode bytes = .ok (i, rest) → i.wf = true ∧ encode i ++ rest = bytes

/-- Words of the opcode map written out from R68 and R72 (the LSR opcodes are decision D4, the byte order D6). -/
def Obligations.WordsOfTheOpcodeMapDecode : Prop :=
  decode [0xA9, 0x05] = .ok (.ldaImm 0x05, []) ∧ decode [0x4A] = .ok (.lsrAcc, []) ∧
  decode [0x46, 0x10] = .ok (.lsrZp 0x10, []) ∧ decode [0x56, 0xF8] = .ok (.lsrZpX 0xF8, []) ∧
  decode [0x4E, 0x34, 0x12] = .ok (.lsrAbs 0x1234, []) ∧ decode [0x5E, 0xFF, 0x7F] = .ok (.lsrAbsX 0x7FFF, []) ∧
  decode [0x00] = .ok (.nopUnassigned 0x00, []) ∧ decodeTableWord 24 0x12344E = some (.lsrAbs 0x1234)

/-- R67: an opcode byte followed by zero, one or two operand bytes; the opcode alone fixes the instruction, its mode and
how many operand bytes it has, and every opcode decodes. A well-formed instruction of a given opcode has one constructor,
so the operand bytes fill in its operands and choose nothing else. -/
def Obligations.OpcodeAloneFixesTheInstructionLength : Prop :=
  ∀ op : Byte, ∃ n : Nat, n ≤ 2 ∧ ∀ rest : List Byte, n ≤ rest.length →
    ∃ i, decode (op :: rest) = .ok (i, rest.drop n) ∧ i.wf = true ∧ i.opcode = op ∧ i.operands = rest.take n

/-- R77: `Length(op)` (the LSR opcodes are decision D4). -/
def Obligations.InstructionLengthTable : Prop :=
  ∀ op : Byte,
    (op ∈ [(0xA9 : Byte), 0x46, 0x56] → instrLength op = 2) ∧ (op ∈ [(0x4E : Byte), 0x5E] → instrLength op = 3) ∧
    (op ∉ [(0xA9 : Byte), 0x46, 0x56, 0x4E, 0x5E] → instrLength op = 1)

/-! ## Fetching and stepping -/

/-- R84: inside the space a fetch gives the byte at `pc` and advances `pc` by exactly one; past it, it raises and leaves the
state as it was. -/
def Obligations.FetchByteReadsAtPcAndAdvancesByOne : Prop :=
  ∀ s : State,
    (s.pc.toNat ≤ 0xFFFF → ∃ t, fetchByte s = .ok (s.readByte s.pc.toNat, t) ∧ t.pc.toNat = s.pc.toNat + 1 ∧
      t.setPc s.pc = s) ∧
    (0xFFFF < s.pc.toNat → fetchByte s = .error s)

/-- R82: when the bytes at `pc` decode to an instruction, the step is that instruction's `exec` with `pc` moved past its
bytes, and then the termination check. -/
def Obligations.StepRunsTheDecodedInstruction : Prop :=
  ∀ (s : State) (i : Instr) (n : Nat), s.rs = .running → s.pc.toNat + n ≤ 0x10000 →
    decode (s.bytesAtPc n) = .ok (i, []) →
    i.wf = true ∧ ∃ u, exec i (s.advancePc n) = .next u ∧
      step s = .next (if u.rs = .running ∧ 0xFFFF < u.pc.toNat then { u with rs := .normalTermination } else u)

/-- R86: an instruction whose operand bytes run past 0xFFFF ends the run with `AddressRangeError`, `pc` at 0x10000, the
fault record filled, and nothing else written (the record and the absence of any other write are decision D11). -/
def Obligations.OperandFetchPastTheTopRaises : Prop :=
  ∀ s : State, s.rs = .running → s.pc.toNat ≤ 0xFFFF → 0x10000 < s.pc.toNat + instrLength s.opcodeAtPc →
    step s = .next { s with pc := 0x10000, rs := .addressRangeError, fa := some { addr := 0x10000, opcode := s.opcodeAtPc } }

/-- R16: each fetch advances `pc` by exactly one, no meaning writes `pc`, and after an instruction `pc` is the address of
the byte after its last byte. -/
def Obligations.PcAdvancesOncePerFetchedByte : Prop :=
  (∀ (s t : State) (b : Byte), fetchByte s = .ok (b, t) → t.pc.toNat = s.pc.toNat + 1) ∧
  (∀ (i : Instr) (s t : State), exec i s = .next t → t.pc = s.pc) ∧
  (∀ s t : State, step s = .next t → t.rs ≠ .addressRangeError →
    t.pc.toNat = s.pc.toNat + instrLength s.opcodeAtPc)

/-- R17, R87 and R89: where the instruction's last byte lies decides the run status after the step, and `pc` only rises, to
0x10000 at most (decisions D2, D10 and D11). -/
def Obligations.LastByteDecidesTheRunStatus : Prop :=
  ∀ s t : State, step s = .next t →
    (t.rs = .running ↔ s.pc.toNat + instrLength s.opcodeAtPc < 0x10000) ∧
    (t.rs = .normalTermination ↔ s.pc.toNat + instrLength s.opcodeAtPc = 0x10000) ∧
    (t.rs = .addressRangeError ↔ 0x10000 < s.pc.toNat + instrLength s.opcodeAtPc) ∧
    s.pc.toNat < t.pc.toNat ∧ t.pc.toNat ≤ 0x10000

/-- R88: a normal end resets nothing; the final state is what the last instruction left, but for the run status. -/
def Obligations.TerminationResetsNothing : Prop :=
  ∀ s t : State, step s = .next t → t.rs = .normalTermination →
    ∃ u, exec s.instrAtPc (s.advancePc (instrLength s.opcodeAtPc)) = .next u ∧ t = { u with rs := .normalTermination }

/-- R26: a run is `Running` from its start, and once the status has left `Running` there is no further step. That `step`
then answers the fault `runEndedNormally` or `runEndedByAddressRange` is the model's choice (log entry 7); R26 itself says
only that there is no step. -/
def Obligations.EndedRunHasNoFurtherStep : Prop :=
  ∀ s : State, (enterRun s).rs = .running ∧
    (s.rs = .normalTermination → step s = .fault .runEndedNormally) ∧
    (s.rs = .addressRangeError → step s = .fault .runEndedByAddressRange) ∧
    ∀ t, step s = .next t → s.rs = .running

/-- R82, R85 and R108: a step is enabled exactly in a running session with `pc` in the space; there it always answers a next
state, and no step is ever refused. -/
def Obligations.EveryEnabledStepAnswers : Prop :=
  ∀ s : State, ((∃ t, step s = .next t) ↔ s.rs = .running ∧ s.pc.toNat ≤ 0xFFFF) ∧ ∀ r, step s ≠ .refused r

/-- What the host's word placement says: the step after `withFetchWord` runs the instruction the decoder reads from that
word (log entry 3). -/
def Obligations.FetchWordIsTheNextInstruction : Prop :=
  ∀ (s : State) (nbits w : Nat) (i : Instr), s.rs = .running → s.pc.toNat ≤ 0xFFFD → s.mem.wf = true →
    decodeTableWord nbits w = some i →
    ∃ u, exec i ((s.withFetchWord nbits w).advancePc (encode i).length) = .next u ∧
      step (s.withFetchWord nbits w) =
        .next (if u.rs = .running ∧ 0xFFFF < u.pc.toNat then { u with rs := .normalTermination } else u)

/-! ## Whole-machine rules -/

/-- The state after reset. `pc`, the status and the empty fault record are R31's. A, X, Y, SP and the flags at zero are the
model's choice (log entry 1), and so is a reset state with no PRG-ROM projected, whose memory is therefore all zero: R31
has memory zero and then the projection (log entry 2). -/
def Obligations.ResetStateValues : Prop :=
  State.reset.pc.toNat = 0x8000 ∧ State.reset.rs = .running ∧ State.reset.fa = none ∧
  (∀ k : Nat, State.reset.readByte k = 0) ∧
  State.reset.a = 0 ∧ State.reset.x = 0 ∧ State.reset.y = 0 ∧ State.reset.sp = 0 ∧
  State.reset.f = ⟨false, false, false, false, false, false, false, false⟩ ∧ State.reset.Legal

/-- Every step keeps a session legal (R15, R17, R26, R27, R28). -/
def Obligations.StepKeepsSessionLegal : Prop :=
  ∀ s t : State, s.Legal → step s = .next t → t.Legal

/-- Every session a load creates is legal, for every `MapperIdFn` and every `InitRegs` (R15, R27, R59, R61). -/
def Obligations.BootedSessionIsLegal : Prop :=
  ∀ (fn : Header → Byte) (init : Config.InitRegs) (img : List Byte) (s : State), boot fn init img = .ok s → s.Legal

/-- R14, R20, R21 and R28: over any number of steps X, Y, SP, the flags I, D, B, U and V and the bus metadata keep their
initial values (decisions D8 and D20). -/
def Obligations.InertStateKeepsItsValueForTheWholeRun : Prop :=
  ∀ (k : Nat) (s t : State), stepN k s = .next t → s.SameInert t

/-- R20 and R14: no instruction reads a flag, Y, SP, the fault record or the bus metadata, not even to write it to another
of them. Two sessions that agree on A, X, `pc`, the run status and memory still agree on them after any number of steps,
and on each other field, taken alone, that they agreed on before, whatever they hold in the rest. -/
def Obligations.FlagsAndInertStateAreNeverRead : Prop :=
  ∀ (k : Nat) (s1 s2 t1 : State), s1.SameRead s2 → stepN k s1 = .next t1 →
    ∃ t2, stepN k s2 = .next t2 ∧ t1.SameRead t2 ∧ KeepsEveryAgreement s1 s2 t1 t2

/-- R14 and R20: A changes only by LDA immediate and LSR A, C only by LSR, Z and N only by LDA immediate and LSR (decisions
D4, D7 and D8). -/
def Obligations.OnlyNamedInstructionsWriteAAndFlags : Prop :=
  ∀ s t : State, step s = .next t →
    (t.a ≠ s.a → s.opcodeAtPc ∈ [(0xA9 : Byte), 0x4A]) ∧
    (t.f.c ≠ s.f.c → s.opcodeAtPc ∈ [(0x4A : Byte), 0x46, 0x56, 0x4E, 0x5E]) ∧
    ((t.f.z ≠ s.f.z ∨ t.f.n ≠ s.f.n) → s.opcodeAtPc ∈ assignedOpcodes)

/-- R41 and R98 to R101: a step changes at most one byte of memory, and only a memory form of LSR does, at the effective
address its operand bytes give (decisions D4, D5 and D6). -/
def Obligations.OnlyLsrMemoryFormsWriteMemory : Prop :=
  ∀ (s t : State) (k : Nat), s.mem.wf = true → step s = .next t → t.readByte k ≠ s.readByte k →
    (∃ zp, s.instrAtPc = .lsrZp zp ∧ k % 65536 = (eaZp zp).toNat) ∨
    (∃ zp, s.instrAtPc = .lsrZpX zp ∧ k % 65536 = (eaZpX zp s.x).toNat) ∨
    (∃ addr, s.instrAtPc = .lsrAbs addr ∧ k % 65536 = (eaAbs addr).toNat) ∨
    (∃ base, s.instrAtPc = .lsrAbsX base ∧ k % 65536 = (eaAbsX base s.x).toNat)

/-- R89 and R132: every run ends, after at most 32768 steps, with `pc` at 0x10000; `run` gives that final state. -/
def Obligations.EveryRunEnds : Prop :=
  ∀ s : State, ∃ k : Nat, k ≤ 32768 ∧ stepN k (enterRun s) = .next (run s) ∧ (run s).rs ≠ .running ∧
    (run s).pc.toNat = 0x10000

/-- R89: over code in which every byte from `pc` to the top is a one-byte instruction, the run goes on for exactly
`0x10000 - pc` steps (32768 from PRG_BASE) and ends normally. -/
def Obligations.OneByteCodeRunsToTheTop : Prop :=
  ∀ s : State, s.rs = .running → s.pc.toNat ≤ 0xFFFF →
    (∀ a : Nat, s.pc.toNat ≤ a → a ≤ 0xFFFF → instrLength (s.readByte a) = 1) →
    (∀ k : Nat, k < 0x10000 - s.pc.toNat → ∃ u, stepN k s = .next u ∧ u.rs = .running) ∧
    ∃ t, stepN (0x10000 - s.pc.toNat) s = .next t ∧ t.rs = .normalTermination

/-- R81: entering the run puts `pc` at PRG_BASE and the status at `Running`, and changes no other state. -/
def Obligations.EnteringTheRunSetsPcAndStatusOnly : Prop :=
  ∀ s : State, enterRun s = { s with pc := 0x8000, rs := .running }

/-! ## The cartridge -/

/-- R47: the header is the first 16 bytes of the image, read as R46 lays them out; only an image of fewer than 16 bytes
fails. -/
def Obligations.HeaderIsTheFirstSixteenBytes : Prop :=
  ∀ img : List Byte,
    (img.length < 16 → parseHeader img = .error (.formatError .truncated)) ∧
    (16 ≤ img.length → ∃ h, parseHeader img = .ok h ∧
      h.sig.toList ++ [h.prgUnits, h.chrUnits, h.flags6, h.flags7, h.flags8, h.flags9, h.flags10] ++ h.padding.toList =
        img.take 16)

/-- R51 (with R49 and R50): the signature is checked before the sentinel, and no other header byte is. -/
def Obligations.SignatureIsCheckedBeforeTheSentinel : Prop :=
  ∀ h : Header,
    (h.sig.toList.take 3 ≠ [0x4E, 0x45, 0x53] → validate h = .error (.formatError .signatureMismatch)) ∧
    (h.sig.toList.take 3 = [0x4E, 0x45, 0x53] → h.sig[3] ≠ 0x1A → validate h = .error (.formatError .missingEofMarker)) ∧
    (h.sig.toList.take 3 = [0x4E, 0x45, 0x53] → h.sig[3] = 0x1A → validate h = .ok ())

/-- R53: the ROM sizes, with the ranges the rule gives. -/
def Obligations.RomSizesAreUnitCountsTimesBankSizes : Prop :=
  ∀ h : Header, deriveRomSizes h = (h.prgUnits.toNat * 16384, h.chrUnits.toNat * 8192) ∧
    (deriveRomSizes h).1 ≤ 4177920 ∧ (deriveRomSizes h).2 ≤ 2088960 ∧
    (deriveRomSizes h).1 % 16384 = 0 ∧ (deriveRomSizes h).2 % 8192 = 0

/-- R52: the default mapper id is `flags7[7:4] : flags6[7:4]`, so it is 0 exactly when both nibbles are (that it is the
default of a parameter is decision D22). -/
def Obligations.DefaultMapperIdJoinsTheHighNibbles : Prop :=
  ∀ h : Header, (deriveMapperId h).toNat = h.flags6.toNat / 16 + 16 * (h.flags7.toNat / 16) ∧
    (deriveMapperId h = 0 ↔ h.flags6.toNat < 16 ∧ h.flags7.toNat < 16)

/-- R105 and R111: the load step reports the first check that fails, and otherwise records what the header says (the order
of the last two checks, and those checks, are decisions D13, D14 and D25). -/
def Obligations.LoadReportsTheFirstFailingCheck : Prop :=
  ∀ (fn : Header → Byte) (img : List Byte),
    (img.length < 16 → loadImage fn img = .error (.formatError .truncated)) ∧
    (16 ≤ img.length → ¬HasToken img → loadImage fn img = .error (.formatError .signatureMismatch)) ∧
    (16 ≤ img.length → HasToken img → imageByte img 3 ≠ 0x1A →
      loadImage fn img = .error (.formatError .missingEofMarker)) ∧
    ∀ h, parseHeader img = .ok h → HasToken img → imageByte img 3 = 0x1A →
      (fn h ≠ 0 → loadImage fn img = .error (.unsupportedMapper (fn h))) ∧
      (fn h = 0 → 2 < h.prgUnits.toNat → loadImage fn img = .error (.prgOversize (h.prgUnits.toNat * 16384))) ∧
      (fn h = 0 → h.prgUnits.toNat ≤ 2 → img.length < 16 + h.prgUnits.toNat * 16384 →
        loadImage fn img = .error (.payloadTruncated img.length)) ∧
      (fn h = 0 → h.prgUnits.toNat ≤ 2 → 16 + h.prgUnits.toNat * 16384 ≤ img.length →
        ∃ bus, loadImage fn img = .ok bus ∧ bus.mapperId = 0 ∧ bus.prgBytes = h.prgUnits.toNat * 16384 ∧
          bus.chrBytes = h.chrUnits.toNat * 8192)

/-- R57: for mapper id 0 the PRG-ROM payload, the bytes right after the header, is copied to PRG_BASE. The premises are the
checks of R59 to R61, after which R57 applies; that the load also succeeds where `prgBytes` is 0 and nothing is copied is
R59's decision D16 (log entry 21). -/
def Obligations.PrgRomIsProjectedAtPrgBase : Prop :=
  ∀ (img : List Byte) (prgBytes : Nat), prgBytes ≤ 32768 → 16 + prgBytes ≤ img.length →
    ∃ m, loadProgram 0 prgBytes img construct = .ok m ∧
      ∀ i : Nat, i < prgBytes → m.read (0x8000 + i) = imageByte img (16 + i)

/-- R58: a one-bank payload is copied into the next bank as well, so that both banks hold it; for any other size memory
holds the payload at PRG_BASE and nothing else, so no copy is made of it. -/
def Obligations.OneBankIsMirroredAndNoOtherSizeIs : Prop :=
  ∀ (img : List Byte) (prgBytes : Nat) (m : Memory), loadProgram 0 prgBytes img construct = .ok m →
    (prgBytes = 16384 → ∀ i : Nat, i < 16384 →
      m.read (0xC000 + i) = imageByte img (16 + i) ∧ m.read (0x8000 + i) = m.read (0xC000 + i)) ∧
    (prgBytes ≠ 16384 → ∀ k : Nat,
      m.read k = if 0x8000 ≤ k ∧ k < 0x8000 + prgBytes then imageByte img (16 + (k - 0x8000)) else 0)

/-- R35: the space is constructed zero, and a byte that the projection does not write is still zero at the first step. -/
def Obligations.UnprojectedBytesAreZeroAtTheFirstStep : Prop :=
  (∀ k : Nat, construct.read k = 0) ∧
  ∀ (fn : Header → Byte) (init : Config.InitRegs) (img : List Byte) (s : State) (k : Nat),
    boot fn init img = .ok s → k < 0x10000 → ¬(0x8000 ≤ k ∧ k < 0x8000 + s.prgBytes) →
    ¬(s.prgBytes = 16384 ∧ 0xC000 ≤ k) → s.readByte k = 0

/-- R54 and R64: no other header bit and no byte after the PRG-ROM payload changes the session a load makes, and neither
does whether there are such bytes, under the default `MapperIdFn` (decisions D15 and D17, log entry 21). -/
def Obligations.UnusedImageBitsDoNotChangeTheLoad : Prop :=
  ∀ (init : Config.InitRegs) (img img' : List Byte), SameLoadInput img img' →
    boot deriveMapperId init img = boot deriveMapperId init img'

/-- R31, R110 and R124: a refused load gives the refusal alone; a successful one gives a session with A, X, Y, SP and the
flags from `InitRegs` (decision D3), `pc` at PRG_BASE, the status `Running`, no fault record, and the loaded bus. -/
def Obligations.BootCreatesTheSessionOfR31 : Prop :=
  ∀ (fn : Header → Byte) (init : Config.InitRegs) (img : List Byte),
    (∀ r, loadImage fn img = .error r → boot fn init img = .error r) ∧
    (∀ bus, loadImage fn img = .ok bus → ∃ s, boot fn init img = .ok s ∧
      s.a = init.a ∧ s.x = init.x ∧ s.y = init.y ∧ s.sp = init.sp ∧
      s.f.c = init.flagC ∧ s.f.z = init.flagZ ∧ s.f.i = init.flagI ∧ s.f.d = init.flagD ∧
      s.f.b = init.flagB ∧ s.f.u = init.flagU ∧ s.f.v = init.flagV ∧ s.f.n = init.flagN ∧
      s.pc.toNat = 0x8000 ∧ s.rs = .running ∧ s.fa = none ∧
      s.mem = bus.mem ∧ s.mapperId = bus.mapperId ∧ s.prgBytes = bus.prgBytes ∧ s.chrBytes = bus.chrBytes)

/-- The reset state is the session of a cartridge without PRG-ROM, with the model's register values (log entries 1 and 2;
that such an image loads is decision D16, log entry 21). -/
def Obligations.ResetIsTheEmptyCartridgeSession : Prop :=
  boot deriveMapperId Config.resetRegs ([0x4E, 0x45, 0x53, 0x1A] ++ List.replicate 12 0) = .ok State.reset

/-- R131 and R110: the host gets the refusal code alone or the final state of an ended run, for every image, `MapperIdFn`
and `InitRegs`. -/
def Obligations.EverySessionIsRefusedOrEnds : Prop :=
  ∀ (fn : Header → Byte) (init : Config.InitRegs) (img : List Byte),
    (∃ r, loadImage fn img = .error r ∧ loadAndRun fn init img = .error r) ∨
    (∃ s t, boot fn init img = .ok s ∧ loadAndRun fn init img = .ok t ∧ t.rs ≠ .running ∧ t.Legal ∧ s.SameInert t)
end

