-- ==== Sys2Proof/Laws/State.lean ====
section
/-! SUPPORT. One lemma per field per update of State and of the flag record, so that no proof unfolds a record update. -/

namespace Sys2Proof.Machine

section
variable (s : State) (v : Byte)
@[simp] theorem State.setA_a : (s.setA v).a = v := rfl
@[simp] theorem State.setA_x : (s.setA v).x = s.x := rfl
@[simp] theorem State.setA_y : (s.setA v).y = s.y := rfl
@[simp] theorem State.setA_sp : (s.setA v).sp = s.sp := rfl
@[simp] theorem State.setA_pc : (s.setA v).pc = s.pc := rfl
@[simp] theorem State.setA_f : (s.setA v).f = s.f := rfl
@[simp] theorem State.setA_rs : (s.setA v).rs = s.rs := rfl
@[simp] theorem State.setA_fa : (s.setA v).fa = s.fa := rfl
@[simp] theorem State.setA_mem : (s.setA v).mem = s.mem := rfl
@[simp] theorem State.setA_mapperId : (s.setA v).mapperId = s.mapperId := rfl
@[simp] theorem State.setA_prgBytes : (s.setA v).prgBytes = s.prgBytes := rfl
@[simp] theorem State.setA_chrBytes : (s.setA v).chrBytes = s.chrBytes := rfl
end

section
variable (s : State) (v : ExtPc)
@[simp] theorem State.setPc_a : (s.setPc v).a = s.a := rfl
@[simp] theorem State.setPc_x : (s.setPc v).x = s.x := rfl
@[simp] theorem State.setPc_y : (s.setPc v).y = s.y := rfl
@[simp] theorem State.setPc_sp : (s.setPc v).sp = s.sp := rfl
@[simp] theorem State.setPc_pc : (s.setPc v).pc = v := rfl
@[simp] theorem State.setPc_f : (s.setPc v).f = s.f := rfl
@[simp] theorem State.setPc_rs : (s.setPc v).rs = s.rs := rfl
@[simp] theorem State.setPc_fa : (s.setPc v).fa = s.fa := rfl
@[simp] theorem State.setPc_mem : (s.setPc v).mem = s.mem := rfl
@[simp] theorem State.setPc_mapperId : (s.setPc v).mapperId = s.mapperId := rfl
@[simp] theorem State.setPc_prgBytes : (s.setPc v).prgBytes = s.prgBytes := rfl
@[simp] theorem State.setPc_chrBytes : (s.setPc v).chrBytes = s.chrBytes := rfl
end

section
variable (s : State) (v : Flags)
@[simp] theorem State.setF_a : (s.setF v).a = s.a := rfl
@[simp] theorem State.setF_x : (s.setF v).x = s.x := rfl
@[simp] theorem State.setF_y : (s.setF v).y = s.y := rfl
@[simp] theorem State.setF_sp : (s.setF v).sp = s.sp := rfl
@[simp] theorem State.setF_pc : (s.setF v).pc = s.pc := rfl
@[simp] theorem State.setF_f : (s.setF v).f = v := rfl
@[simp] theorem State.setF_rs : (s.setF v).rs = s.rs := rfl
@[simp] theorem State.setF_fa : (s.setF v).fa = s.fa := rfl
@[simp] theorem State.setF_mem : (s.setF v).mem = s.mem := rfl
@[simp] theorem State.setF_mapperId : (s.setF v).mapperId = s.mapperId := rfl
@[simp] theorem State.setF_prgBytes : (s.setF v).prgBytes = s.prgBytes := rfl
@[simp] theorem State.setF_chrBytes : (s.setF v).chrBytes = s.chrBytes := rfl
end

section
variable (s : State) (v : RunStatus)
@[simp] theorem State.setRs_a : (s.setRs v).a = s.a := rfl
@[simp] theorem State.setRs_x : (s.setRs v).x = s.x := rfl
@[simp] theorem State.setRs_y : (s.setRs v).y = s.y := rfl
@[simp] theorem State.setRs_sp : (s.setRs v).sp = s.sp := rfl
@[simp] theorem State.setRs_pc : (s.setRs v).pc = s.pc := rfl
@[simp] theorem State.setRs_f : (s.setRs v).f = s.f := rfl
@[simp] theorem State.setRs_rs : (s.setRs v).rs = v := rfl
@[simp] theorem State.setRs_fa : (s.setRs v).fa = s.fa := rfl
@[simp] theorem State.setRs_mem : (s.setRs v).mem = s.mem := rfl
@[simp] theorem State.setRs_mapperId : (s.setRs v).mapperId = s.mapperId := rfl
@[simp] theorem State.setRs_prgBytes : (s.setRs v).prgBytes = s.prgBytes := rfl
@[simp] theorem State.setRs_chrBytes : (s.setRs v).chrBytes = s.chrBytes := rfl
end

section
variable (s : State) (v : Option FaultRecord)
@[simp] theorem State.setFa_a : (s.setFa v).a = s.a := rfl
@[simp] theorem State.setFa_x : (s.setFa v).x = s.x := rfl
@[simp] theorem State.setFa_y : (s.setFa v).y = s.y := rfl
@[simp] theorem State.setFa_sp : (s.setFa v).sp = s.sp := rfl
@[simp] theorem State.setFa_pc : (s.setFa v).pc = s.pc := rfl
@[simp] theorem State.setFa_f : (s.setFa v).f = s.f := rfl
@[simp] theorem State.setFa_rs : (s.setFa v).rs = s.rs := rfl
@[simp] theorem State.setFa_fa : (s.setFa v).fa = v := rfl
@[simp] theorem State.setFa_mem : (s.setFa v).mem = s.mem := rfl
@[simp] theorem State.setFa_mapperId : (s.setFa v).mapperId = s.mapperId := rfl
@[simp] theorem State.setFa_prgBytes : (s.setFa v).prgBytes = s.prgBytes := rfl
@[simp] theorem State.setFa_chrBytes : (s.setFa v).chrBytes = s.chrBytes := rfl
end

section
variable (s : State) (v : Memory)
@[simp] theorem State.setMem_a : (s.setMem v).a = s.a := rfl
@[simp] theorem State.setMem_x : (s.setMem v).x = s.x := rfl
@[simp] theorem State.setMem_y : (s.setMem v).y = s.y := rfl
@[simp] theorem State.setMem_sp : (s.setMem v).sp = s.sp := rfl
@[simp] theorem State.setMem_pc : (s.setMem v).pc = s.pc := rfl
@[simp] theorem State.setMem_f : (s.setMem v).f = s.f := rfl
@[simp] theorem State.setMem_rs : (s.setMem v).rs = s.rs := rfl
@[simp] theorem State.setMem_fa : (s.setMem v).fa = s.fa := rfl
@[simp] theorem State.setMem_mem : (s.setMem v).mem = v := rfl
@[simp] theorem State.setMem_mapperId : (s.setMem v).mapperId = s.mapperId := rfl
@[simp] theorem State.setMem_prgBytes : (s.setMem v).prgBytes = s.prgBytes := rfl
@[simp] theorem State.setMem_chrBytes : (s.setMem v).chrBytes = s.chrBytes := rfl
end

section
variable (f : Flags) (w : Bool)
@[simp] theorem Flags.setC_c : (f.setC w).c = w := rfl
@[simp] theorem Flags.setC_z : (f.setC w).z = f.z := rfl
@[simp] theorem Flags.setC_i : (f.setC w).i = f.i := rfl
@[simp] theorem Flags.setC_d : (f.setC w).d = f.d := rfl
@[simp] theorem Flags.setC_b : (f.setC w).b = f.b := rfl
@[simp] theorem Flags.setC_u : (f.setC w).u = f.u := rfl
@[simp] theorem Flags.setC_v : (f.setC w).v = f.v := rfl
@[simp] theorem Flags.setC_n : (f.setC w).n = f.n := rfl
end

section
variable (f : Flags) (w : Bool)
@[simp] theorem Flags.setZ_c : (f.setZ w).c = f.c := rfl
@[simp] theorem Flags.setZ_z : (f.setZ w).z = w := rfl
@[simp] theorem Flags.setZ_i : (f.setZ w).i = f.i := rfl
@[simp] theorem Flags.setZ_d : (f.setZ w).d = f.d := rfl
@[simp] theorem Flags.setZ_b : (f.setZ w).b = f.b := rfl
@[simp] theorem Flags.setZ_u : (f.setZ w).u = f.u := rfl
@[simp] theorem Flags.setZ_v : (f.setZ w).v = f.v := rfl
@[simp] theorem Flags.setZ_n : (f.setZ w).n = f.n := rfl
end

section
variable (f : Flags) (w : Bool)
@[simp] theorem Flags.setN_c : (f.setN w).c = f.c := rfl
@[simp] theorem Flags.setN_z : (f.setN w).z = f.z := rfl
@[simp] theorem Flags.setN_i : (f.setN w).i = f.i := rfl
@[simp] theorem Flags.setN_d : (f.setN w).d = f.d := rfl
@[simp] theorem Flags.setN_b : (f.setN w).b = f.b := rfl
@[simp] theorem Flags.setN_u : (f.setN w).u = f.u := rfl
@[simp] theorem Flags.setN_v : (f.setN w).v = f.v := rfl
@[simp] theorem Flags.setN_n : (f.setN w).n = w := rfl
end

section
variable (f : Flags) (w : Byte)
@[simp] theorem Flags.afterLoad_c : (f.afterLoad w).c = f.c := rfl
@[simp] theorem Flags.afterLoad_z : (f.afterLoad w).z = (w == 0) := rfl
@[simp] theorem Flags.afterLoad_i : (f.afterLoad w).i = f.i := rfl
@[simp] theorem Flags.afterLoad_d : (f.afterLoad w).d = f.d := rfl
@[simp] theorem Flags.afterLoad_b : (f.afterLoad w).b = f.b := rfl
@[simp] theorem Flags.afterLoad_u : (f.afterLoad w).u = f.u := rfl
@[simp] theorem Flags.afterLoad_v : (f.afterLoad w).v = f.v := rfl
@[simp] theorem Flags.afterLoad_n : (f.afterLoad w).n = w.getLsbD 7 := rfl
end

section
variable (f : Flags) (w : Byte)
@[simp] theorem Flags.afterLsr_c : (f.afterLsr w).c = w.getLsbD 0 := rfl
@[simp] theorem Flags.afterLsr_z : (f.afterLsr w).z = (lsrResult w == 0) := rfl
@[simp] theorem Flags.afterLsr_i : (f.afterLsr w).i = f.i := rfl
@[simp] theorem Flags.afterLsr_d : (f.afterLsr w).d = f.d := rfl
@[simp] theorem Flags.afterLsr_b : (f.afterLsr w).b = f.b := rfl
@[simp] theorem Flags.afterLsr_u : (f.afterLsr w).u = f.u := rfl
@[simp] theorem Flags.afterLsr_v : (f.afterLsr w).v = f.v := rfl
@[simp] theorem Flags.afterLsr_n : (f.afterLsr w).n = false := rfl
end

section
variable (s : State) (addr : Nat) (v : Byte)
@[simp] theorem State.writeByte_a : (s.writeByte addr v).a = s.a := rfl
@[simp] theorem State.writeByte_x : (s.writeByte addr v).x = s.x := rfl
@[simp] theorem State.writeByte_y : (s.writeByte addr v).y = s.y := rfl
@[simp] theorem State.writeByte_sp : (s.writeByte addr v).sp = s.sp := rfl
@[simp] theorem State.writeByte_pc : (s.writeByte addr v).pc = s.pc := rfl
@[simp] theorem State.writeByte_f : (s.writeByte addr v).f = s.f := rfl
@[simp] theorem State.writeByte_rs : (s.writeByte addr v).rs = s.rs := rfl
@[simp] theorem State.writeByte_fa : (s.writeByte addr v).fa = s.fa := rfl
@[simp] theorem State.writeByte_mem : (s.writeByte addr v).mem = s.mem.write (addr % 65536) v := rfl
@[simp] theorem State.writeByte_mapperId : (s.writeByte addr v).mapperId = s.mapperId := rfl
@[simp] theorem State.writeByte_prgBytes : (s.writeByte addr v).prgBytes = s.prgBytes := rfl
@[simp] theorem State.writeByte_chrBytes : (s.writeByte addr v).chrBytes = s.chrBytes := rfl
end

section
variable (s : State) (ea : Addr)
@[simp] theorem lsrMemory_a : (lsrMemory ea s).a = s.a := rfl
@[simp] theorem lsrMemory_x : (lsrMemory ea s).x = s.x := rfl
@[simp] theorem lsrMemory_y : (lsrMemory ea s).y = s.y := rfl
@[simp] theorem lsrMemory_sp : (lsrMemory ea s).sp = s.sp := rfl
@[simp] theorem lsrMemory_pc : (lsrMemory ea s).pc = s.pc := rfl
@[simp] theorem lsrMemory_f : (lsrMemory ea s).f = s.f.afterLsr (s.readByte ea.toNat) := rfl
@[simp] theorem lsrMemory_rs : (lsrMemory ea s).rs = s.rs := rfl
@[simp] theorem lsrMemory_fa : (lsrMemory ea s).fa = s.fa := rfl
@[simp] theorem lsrMemory_mem : (lsrMemory ea s).mem = s.mem.write (ea.toNat % 65536) (lsrResult (s.readByte ea.toNat)) := rfl
@[simp] theorem lsrMemory_mapperId : (lsrMemory ea s).mapperId = s.mapperId := rfl
@[simp] theorem lsrMemory_prgBytes : (lsrMemory ea s).prgBytes = s.prgBytes := rfl
@[simp] theorem lsrMemory_chrBytes : (lsrMemory ea s).chrBytes = s.chrBytes := rfl
end

section
variable (s : State) (n : Nat)
@[simp] theorem State.advancePc_a : (s.advancePc n).a = s.a := rfl
@[simp] theorem State.advancePc_x : (s.advancePc n).x = s.x := rfl
@[simp] theorem State.advancePc_y : (s.advancePc n).y = s.y := rfl
@[simp] theorem State.advancePc_sp : (s.advancePc n).sp = s.sp := rfl
@[simp] theorem State.advancePc_pc : (s.advancePc n).pc = s.pc + BitVec.ofNat 17 n := rfl
@[simp] theorem State.advancePc_f : (s.advancePc n).f = s.f := rfl
@[simp] theorem State.advancePc_rs : (s.advancePc n).rs = s.rs := rfl
@[simp] theorem State.advancePc_fa : (s.advancePc n).fa = s.fa := rfl
@[simp] theorem State.advancePc_mem : (s.advancePc n).mem = s.mem := rfl
@[simp] theorem State.advancePc_mapperId : (s.advancePc n).mapperId = s.mapperId := rfl
@[simp] theorem State.advancePc_prgBytes : (s.advancePc n).prgBytes = s.prgBytes := rfl
@[simp] theorem State.advancePc_chrBytes : (s.advancePc n).chrBytes = s.chrBytes := rfl
end

section
variable (op : Byte) (s : State)
@[simp] theorem raiseAddressRangeError_a : (raiseAddressRangeError op s).a = s.a := rfl
@[simp] theorem raiseAddressRangeError_x : (raiseAddressRangeError op s).x = s.x := rfl
@[simp] theorem raiseAddressRangeError_y : (raiseAddressRangeError op s).y = s.y := rfl
@[simp] theorem raiseAddressRangeError_sp : (raiseAddressRangeError op s).sp = s.sp := rfl
@[simp] theorem raiseAddressRangeError_pc : (raiseAddressRangeError op s).pc = s.pc := rfl
@[simp] theorem raiseAddressRangeError_f : (raiseAddressRangeError op s).f = s.f := rfl
@[simp] theorem raiseAddressRangeError_rs : (raiseAddressRangeError op s).rs = .addressRangeError := rfl
@[simp] theorem raiseAddressRangeError_fa : (raiseAddressRangeError op s).fa = some { addr := s.pc, opcode := op } := rfl
@[simp] theorem raiseAddressRangeError_mem : (raiseAddressRangeError op s).mem = s.mem := rfl
@[simp] theorem raiseAddressRangeError_mapperId : (raiseAddressRangeError op s).mapperId = s.mapperId := rfl
@[simp] theorem raiseAddressRangeError_prgBytes : (raiseAddressRangeError op s).prgBytes = s.prgBytes := rfl
@[simp] theorem raiseAddressRangeError_chrBytes : (raiseAddressRangeError op s).chrBytes = s.chrBytes := rfl
end

/-- Reading a byte looks at memory only. -/
theorem State.readByte_congr {s t : State} (h : t.mem = s.mem) (addr : Nat) : t.readByte addr = s.readByte addr := by
  simp only [State.readByte, h]

/-- The termination check changes the run status only. -/
theorem terminationCheck_cases (s : State) :
    (s.rs = .running ∧ 0xFFFF < s.pc.toNat ∧ terminationCheck s = s.setRs .normalTermination) ∨
    (¬(s.rs = .running ∧ 0xFFFF < s.pc.toNat) ∧ terminationCheck s = s) := by
  unfold terminationCheck
  by_cases h : s.rs = .running ∧ 0xFFFF < s.pc.toNat
  · exact .inl ⟨h.1, h.2, if_pos h⟩
  · exact .inr ⟨h, if_neg h⟩

section
variable (s : State)
@[simp] theorem terminationCheck_a : (terminationCheck s).a = s.a := by unfold terminationCheck; split <;> rfl
@[simp] theorem terminationCheck_x : (terminationCheck s).x = s.x := by unfold terminationCheck; split <;> rfl
@[simp] theorem terminationCheck_y : (terminationCheck s).y = s.y := by unfold terminationCheck; split <;> rfl
@[simp] theorem terminationCheck_sp : (terminationCheck s).sp = s.sp := by unfold terminationCheck; split <;> rfl
@[simp] theorem terminationCheck_pc : (terminationCheck s).pc = s.pc := by unfold terminationCheck; split <;> rfl
@[simp] theorem terminationCheck_f : (terminationCheck s).f = s.f := by unfold terminationCheck; split <;> rfl
@[simp] theorem terminationCheck_fa : (terminationCheck s).fa = s.fa := by unfold terminationCheck; split <;> rfl
@[simp] theorem terminationCheck_mem : (terminationCheck s).mem = s.mem := by unfold terminationCheck; split <;> rfl
@[simp] theorem terminationCheck_mapperId : (terminationCheck s).mapperId = s.mapperId := by unfold terminationCheck; split <;> rfl
@[simp] theorem terminationCheck_prgBytes : (terminationCheck s).prgBytes = s.prgBytes := by unfold terminationCheck; split <;> rfl
@[simp] theorem terminationCheck_chrBytes : (terminationCheck s).chrBytes = s.chrBytes := by unfold terminationCheck; split <;> rfl
end

end Sys2Proof.Machine
end

