-- ==== Sys2Proof/Laws/Memory.lean ====
section
/-! SUPPORT. The laws of the canonical memory list: reads after writes, every operation keeps the form, and equal
contents are equal data. -/

namespace Sys2Proof.Machine

@[simp] theorem Memory.read_nil (a : Nat) : Memory.read [] a = 0 := rfl

theorem Memory.wfFrom_cons {lo a : Nat} {v : Byte} {m : Memory} :
    Memory.wfFrom lo ((a, v) :: m) = true ↔ lo ≤ a ∧ a < 65536 ∧ v ≠ 0 ∧ Memory.wfFrom (a + 1) m = true := by
  simp only [Memory.wfFrom, Bool.and_eq_true, decide_eq_true_eq, and_assoc]
  rfl

theorem Memory.wfFrom_mono {lo lo' : Nat} {m : Memory} (h : Memory.wfFrom lo m = true) (hle : lo' ≤ lo) :
    Memory.wfFrom lo' m = true := by
  cases m with
  | nil => rfl
  | cons c m =>
    obtain ⟨b, w⟩ := c
    rw [Memory.wfFrom_cons] at h ⊢
    exact ⟨by omega, h.2⟩

/-- Below its lower bound a canonical list holds nothing. -/
theorem Memory.read_below {lo a : Nat} {m : Memory} (h : Memory.wfFrom lo m = true) (ha : a < lo) :
    Memory.read m a = 0 := by
  induction m generalizing lo with
  | nil => rfl
  | cons c m ih =>
    obtain ⟨b, w⟩ := c
    rw [Memory.wfFrom_cons] at h
    have hne : a ≠ b := by omega
    simp only [Memory.read, if_neg hne]
    exact ih h.2.2.2 (by omega)

/-- A canonical list holds nothing past the end of the space. -/
theorem Memory.read_outside {lo a : Nat} {m : Memory} (h : Memory.wfFrom lo m = true) (ha : 65536 ≤ a) :
    Memory.read m a = 0 := by
  induction m generalizing lo with
  | nil => rfl
  | cons c m ih =>
    obtain ⟨b, w⟩ := c
    rw [Memory.wfFrom_cons] at h
    have hne : a ≠ b := by omega
    simp only [Memory.read, if_neg hne]
    exact ih h.2.2.2

theorem Memory.read_consCell {a b : Nat} {v : Byte} {m : Memory} (h : Memory.read m a = 0) :
    Memory.read (Memory.consCell a v m) b = if b = a then v else Memory.read m b := by
  unfold Memory.consCell
  by_cases hv : v = Memory.unlisted
  · by_cases hb : b = a
    · simp [hv, hb, h, Memory.unlisted]
    · simp [hv, hb]
  · simp [hv, Memory.read]

theorem Memory.wfFrom_consCell {lo a : Nat} {v : Byte} {m : Memory} (h : Memory.wfFrom (a + 1) m = true)
    (hlo : lo ≤ a) (ha : a < 65536) : Memory.wfFrom lo (Memory.consCell a v m) = true := by
  unfold Memory.consCell
  by_cases hv : v = Memory.unlisted
  · simp only [hv, if_true]
    exact Memory.wfFrom_mono h (by omega)
  · rw [if_neg hv, Memory.wfFrom_cons]
    exact ⟨hlo, ha, hv, h⟩

/-- Read after write: the byte written at the address, every other byte as before. -/
theorem Memory.read_write {lo a : Nat} {m : Memory} (h : Memory.wfFrom lo m = true) (v : Byte) (b : Nat) :
    Memory.read (Memory.write m a v) b = if b = a then v else Memory.read m b := by
  induction m generalizing lo with
  | nil => exact Memory.read_consCell rfl
  | cons c m ih =>
    obtain ⟨k, w⟩ := c
    have hc := Memory.wfFrom_cons.mp h
    unfold Memory.write
    split
    · rename_i hlt
      refine Memory.read_consCell ?_
      exact Memory.read_below (lo := k) (Memory.wfFrom_cons.mpr ⟨le_refl k, hc.2⟩) hlt
    · split
      · rename_i _ heq
        subst heq
        rw [Memory.read_consCell (Memory.read_below hc.2.2.2 (by omega))]
        by_cases hb : b = a
        · simp [hb]
        · simp [hb, Memory.read]
      · rename_i hlt hne
        simp only [Memory.read, ih hc.2.2.2]
        by_cases hb : b = k
        · simp [hb, Ne.symm hne]
        · simp [hb]

/-- A write keeps the canonical form. -/
theorem Memory.wfFrom_write {lo a : Nat} {m : Memory} (h : Memory.wfFrom lo m = true) (v : Byte)
    (hlo : lo ≤ a) (ha : a < 65536) : Memory.wfFrom lo (Memory.write m a v) = true := by
  induction m generalizing lo with
  | nil => exact Memory.wfFrom_consCell rfl hlo ha
  | cons c m ih =>
    obtain ⟨k, w⟩ := c
    have hc := Memory.wfFrom_cons.mp h
    unfold Memory.write
    split
    · exact Memory.wfFrom_consCell (Memory.wfFrom_cons.mpr ⟨by omega, hc.2⟩) hlo ha
    · split
      · rename_i _ heq
        subst heq
        exact Memory.wfFrom_consCell hc.2.2.2 hlo ha
      · exact Memory.wfFrom_cons.mpr ⟨hc.1, hc.2.1, hc.2.2.1, ih hc.2.2.2 (by omega)⟩

theorem Memory.wf_write {m : Memory} (h : m.wf = true) (v : Byte) {a : Nat} (ha : a < 65536) :
    (m.write a v).wf = true := Memory.wfFrom_write h v (Nat.zero_le a) ha

/-- A canonical list is fixed by what it reads as. -/
theorem Memory.ext_from {lo : Nat} {m n : Memory} (hm : Memory.wfFrom lo m = true) (hn : Memory.wfFrom lo n = true)
    (h : ∀ a, m.read a = n.read a) : m = n := by
  induction m generalizing lo n with
  | nil =>
    cases n with
    | nil => rfl
    | cons c n =>
      obtain ⟨b, w⟩ := c
      have hb := h b
      rw [Memory.wfFrom_cons] at hn
      simp [Memory.read, Memory.unlisted] at hb
      exact absurd hb.symm hn.2.2.1
  | cons c m ih =>
    obtain ⟨a, v⟩ := c
    have hmc := Memory.wfFrom_cons.mp hm
    cases n with
    | nil =>
      have ha := h a
      simp [Memory.read, Memory.unlisted] at ha
      exact absurd ha hmc.2.2.1
    | cons d n =>
      obtain ⟨b, w⟩ := d
      have hnc := Memory.wfFrom_cons.mp hn
      have hab : a = b := by
        rcases Nat.lt_trichotomy a b with hlt | heq | hgt
        · have ha := h a
          rw [Memory.read_below (lo := b) (m := (b, w) :: n) (Memory.wfFrom_cons.mpr ⟨le_refl b, hnc.2⟩) hlt] at ha
          simp [Memory.read] at ha
          exact absurd ha hmc.2.2.1
        · exact heq
        · have hb := h b
          rw [Memory.read_below (lo := a) (m := (a, v) :: m) (Memory.wfFrom_cons.mpr ⟨le_refl a, hmc.2⟩) hgt] at hb
          simp [Memory.read] at hb
          exact absurd hb.symm hnc.2.2.1
      subst hab
      have hvw : v = w := by simpa [Memory.read] using h a
      subst hvw
      congr 1
      refine ih hmc.2.2.2 hnc.2.2.2 fun k => ?_
      by_cases hk : k = a
      · rw [Memory.read_below hmc.2.2.2 (by omega), Memory.read_below hnc.2.2.2 (by omega)]
      · simpa [Memory.read, hk] using h k

/-- Consecutive writes keep the canonical form. -/
theorem Memory.wf_writeBytes {m : Memory} (h : m.wf = true) {a : Nat} {bs : List Byte} (ha : a + bs.length ≤ 65536) :
    (m.writeBytes a bs).wf = true := by
  induction bs generalizing m a with
  | nil => exact h
  | cons b bs ih =>
    simp only [List.length_cons] at ha
    exact ih (Memory.wf_write h b (by omega)) (by omega)

/-- What consecutive writes leave: the bytes in their range, everything else as before. -/
theorem Memory.read_writeBytes {m : Memory} (h : m.wf = true) {a : Nat} {bs : List Byte}
    (ha : a + bs.length ≤ 65536) (k : Nat) :
    (m.writeBytes a bs).read k = if a ≤ k ∧ k < a + bs.length then bs.getD (k - a) 0 else m.read k := by
  induction bs generalizing m a with
  | nil =>
    have : ¬(a ≤ k ∧ k < a + ([] : List Byte).length) := by simp
    rw [if_neg this]
    rfl
  | cons b bs ih =>
    simp only [List.length_cons] at ha ⊢
    rw [Memory.writeBytes, ih (Memory.wf_write h b (by omega)) (by omega), Memory.read_write h]
    by_cases hk : k = a
    · subst hk
      rw [if_neg (by omega), if_pos rfl, if_pos (by omega)]
      simp
    · rw [if_neg hk]
      by_cases hr : a + 1 ≤ k ∧ k < a + 1 + bs.length
      · rw [if_pos hr, if_pos (by omega)]
        have : k - a = (k - (a + 1)) + 1 := by omega
        rw [this, List.getD_cons_succ]
      · rw [if_neg hr, if_neg (by omega)]

/-- `readByte` after `writeByte`: the addresses are compared after the masking. -/
theorem State.readByte_writeByte {s : State} (h : s.mem.wf = true) (addr : Nat) (v : Byte) (k : Nat) :
    (s.writeByte addr v).readByte k = if k % 65536 = addr % 65536 then v else s.readByte k := by
  simp only [State.readByte, State.writeByte_mem]
  exact Memory.read_write h v _

/-- `writeByte` keeps memory canonical. -/
theorem State.writeByte_wf {s : State} (h : s.mem.wf = true) (addr : Nat) (v : Byte) :
    (s.writeByte addr v).mem.wf = true := Memory.wf_write h v (Nat.mod_lt _ (by decide))

/-- LSR of a memory byte keeps memory canonical. -/
theorem lsrMemory_wf {s : State} (h : s.mem.wf = true) (ea : Addr) : (lsrMemory ea s).mem.wf = true :=
  Memory.wf_write h _ (Nat.mod_lt _ (by decide))

/-- What LSR of a memory byte leaves at each address: the shifted byte at `ea`, every other byte as before. -/
theorem lsrMemory_readByte {s : State} (h : s.mem.wf = true) (ea : Addr) (k : Nat) :
    (lsrMemory ea s).readByte k =
      if k % 65536 = ea.toNat then lsrResult (s.readByte ea.toNat) else s.readByte k := by
  have hw := State.readByte_writeByte (s := s.setF (s.f.afterLsr (s.readByte ea.toNat))) h ea.toNat
    (lsrResult (s.readByte ea.toNat)) k
  rw [Nat.mod_eq_of_lt (show ea.toNat < 65536 from ea.isLt)] at hw
  exact hw

theorem Memory.wf_reset : State.reset.mem.wf = true := rfl

end Sys2Proof.Machine
end

