-- ==== Sys2Proof/Laws/Cartridge.lean ====
section
/-! SUPPORT. All that the load step can answer, and what the mapper-0 projection leaves in memory. -/

namespace Sys2Proof.Machine

theorem prgPayload_length {img : List Byte} {n : Nat} (h : headerBytes + n ≤ img.length) :
    (prgPayload img n).length = n := by
  simp only [headerBytes] at h
  simp only [prgPayload, headerBytes, List.length_take, List.length_drop]
  omega

theorem prgPayload_byte {img : List Byte} {n i : Nat} (hi : i < n) :
    (prgPayload img n).getD i 0 = imageByte img (16 + i) := by
  simp only [prgPayload, headerBytes, imageByte, List.getD_eq_getElem?_getD, List.getElem?_take, List.getElem?_drop, hi,
    if_true]

theorem prgPayload_congr {img img' : List Byte} {n : Nat} (hn : headerBytes + n ≤ img.length)
    (hn' : headerBytes + n ≤ img'.length)
    (h : ∀ i, i < n → imageByte img (16 + i) = imageByte img' (16 + i)) : prgPayload img n = prgPayload img' n := by
  apply List.ext_getElem
  · rw [prgPayload_length hn, prgPayload_length hn']
  · intro i h1 h2
    have hi : i < n := by rwa [prgPayload_length hn] at h1
    have := h i hi
    rw [← prgPayload_byte hi, ← prgPayload_byte hi] at this
    simpa [List.getD_eq_getElem?_getD, h1, h2] using this

theorem projectPrg_wf {p : Nat} {img : List Byte} {m : Memory} (hm : m.wf = true) (hp : p ≤ 32768)
    (hl : headerBytes + p ≤ img.length) : (projectPrg p img m).wf = true := by
  have hlen := prgPayload_length hl
  unfold projectPrg
  simp only [Config.prgBase]
  split
  · rename_i h1
    subst h1
    simp only [prgUnitBytes] at hlen ⊢
    exact Memory.wf_writeBytes (Memory.wf_writeBytes hm (by omega)) (by omega)
  · exact Memory.wf_writeBytes hm (by omega)

/-- What each address holds after the projection. -/
theorem projectPrg_read {p : Nat} {img : List Byte} {m : Memory} (hm : m.wf = true) (hp : p ≤ 32768)
    (hl : headerBytes + p ≤ img.length) (k : Nat) :
    (projectPrg p img m).read k =
      if 0x8000 ≤ k ∧ k < 0x8000 + p then imageByte img (16 + (k - 0x8000))
      else if p = 16384 ∧ 0xC000 ≤ k ∧ k < 0x10000 then imageByte img (16 + (k - 0xC000))
      else m.read k := by
  have hlen := prgPayload_length hl
  have hone : ((m.writeBytes 0x8000 (prgPayload img p)).read k) =
      if 0x8000 ≤ k ∧ k < 0x8000 + p then imageByte img (16 + (k - 0x8000)) else m.read k := by
    rw [Memory.read_writeBytes hm (by omega), hlen]
    split
    · exact prgPayload_byte (by omega)
    · rfl
  unfold projectPrg
  simp only [Config.prgBase]
  by_cases h1 : p = 16384
  · subst h1
    rw [if_pos (by rfl)]
    simp only [prgUnitBytes]
    rw [Memory.read_writeBytes (Memory.wf_writeBytes hm (by omega)) (by omega), hlen, hone]
    by_cases hk : 0x8000 + 16384 ≤ k ∧ k < 0x8000 + 16384 + 16384
    · have hno : ¬(0x8000 ≤ k ∧ k < 0x8000 + 16384) := by omega
      have hyes : True ∧ 0xC000 ≤ k ∧ k < 0x10000 := ⟨trivial, by omega, by omega⟩
      rw [if_pos hk, if_neg hno, if_pos hyes]
      exact prgPayload_byte (by omega)
    · rw [if_neg hk]
      split
      · rfl
      · rw [if_neg (by omega)]
  · rw [if_neg (show ¬p = prgUnitBytes from h1), hone]
    split
    · rfl
    · rw [if_neg (by omega)]

/-- `loadProgram` answers exactly when its three checks pass. -/
theorem loadProgram_ok {id : Byte} {p : Nat} {img : List Byte} {m m' : Memory} :
    loadProgram id p img m = .ok m' ↔
      id = 0 ∧ p ≤ 32768 ∧ headerBytes + p ≤ img.length ∧ m' = projectPrg p img m := by
  unfold loadProgram prgCapacity
  split
  · rename_i h
    simp only [reduceCtorEq, false_iff]
    exact fun e => h e.1
  · rename_i h
    simp only [ne_eq, Decidable.not_not] at h
    split
    · simp only [reduceCtorEq, false_iff]
      omega
    · split
      · simp only [reduceCtorEq, false_iff]
        omega
      · simp only [Except.ok.injEq, h, true_and]
        constructor
        · rintro rfl
          exact ⟨by omega, by omega, rfl⟩
        · rintro ⟨-, -, rfl⟩
          rfl

/-- All that a successful load says of the image and of the bus it records. -/
theorem loadImage_ok {fn : Header → Byte} {img : List Byte} {bus : Bus} :
    loadImage fn img = .ok bus ↔
      ∃ h, parseHeader img = .ok h ∧ validate h = .ok () ∧ fn h = 0 ∧ (deriveRomSizes h).1 ≤ 32768 ∧
        headerBytes + (deriveRomSizes h).1 ≤ img.length ∧
        bus = { mem := projectPrg (deriveRomSizes h).1 img construct, mapperId := fn h
                prgBytes := (deriveRomSizes h).1, chrBytes := (deriveRomSizes h).2 } := by
  unfold loadImage
  cases hp : parseHeader img with
  | error r => simp
  | ok h =>
    simp only [Except.ok.injEq, exists_eq_left']
    cases hv : validate h with
    | error r => simp
    | ok u =>
      simp only [true_and]
      cases hm : loadProgram (fn h) (deriveRomSizes h).1 img construct with
      | error r =>
        simp only [reduceCtorEq, false_iff]
        rintro ⟨h1, h2, h3, -⟩
        rw [loadProgram_ok.mpr ⟨h1, h2, h3, rfl⟩] at hm
        exact absurd hm (by simp)
      | ok m =>
        obtain ⟨h1, h2, h3, rfl⟩ := loadProgram_ok.mp hm
        simp only [Except.ok.injEq]
        exact ⟨fun e => ⟨h1, h2, h3, e.symm⟩, fun e => e.2.2.2.symm⟩

/-- The header of an image that has one. -/
theorem parseHeader_ok {img : List Byte} {h : Header} (hp : parseHeader img = .ok h) :
    16 ≤ img.length ∧ h.prgUnits = imageByte img 4 ∧ h.chrUnits = imageByte img 5 ∧ h.flags6 = imageByte img 6 ∧
      h.flags7 = imageByte img 7 ∧
      h.sig = #v[imageByte img 0, imageByte img 1, imageByte img 2, imageByte img 3] := by
  unfold parseHeader headerBytes at hp
  split at hp
  · exact absurd hp (by simp)
  · simp only [Except.ok.injEq] at hp
    subst hp
    exact ⟨by omega, rfl, rfl, rfl, rfl, rfl⟩

/-- `boot` creates a session exactly when the load succeeds. -/
theorem boot_ok {fn : Header → Byte} {init : Config.InitRegs} {img : List Byte} {s : State} :
    boot fn init img = .ok s ↔ ∃ bus, loadImage fn img = .ok bus ∧ s = createSession init bus := by
  unfold boot
  cases loadImage fn img with
  | error r => simp
  | ok bus => simp [eq_comm]

end Sys2Proof.Machine
end

