-- ==== Sys2Proof/Laws/PerInstr.lean ====
section
/-! SUPPORT. The families of statements made once per instruction, about the instruction as a term. -/

namespace Sys2Proof.Laws

/-- The absolute operand as a number: the first byte is worth 1, the second 256. -/
theorem addrOfBytes_toNat (b1 b2 : Byte) : (addrOfBytes b1 b2).toNat = b1.toNat + 256 * b2.toNat := by
  have h1 := b1.isLt
  have : (addrOfBytes b1 b2).toNat = b2.toNat <<< 8 ||| b1.toNat := BitVec.toNat_append b2 b1
  rw [this, ← Nat.shiftLeft_add_eq_or_of_lt h1, Nat.shiftLeft_eq]
  omega

theorem addrLow_toNat (a : Addr) : (addrLow a).toNat = a.toNat % 256 := by
  simp [addrLow, BitVec.extractLsb']

theorem addrHigh_toNat (a : Addr) : (addrHigh a).toNat = a.toNat / 256 := by
  have h := a.isLt
  simp only [addrHigh, BitVec.extractLsb', BitVec.toNat_ofNat, Nat.shiftRight_eq_div_pow]
  omega

/-- The low and high byte of an address, put together again, are the address. -/
theorem addrOfBytes_low_high (a : Addr) : addrOfBytes (addrLow a) (addrHigh a) = a := by
  apply BitVec.eq_of_toNat_eq
  rw [addrOfBytes_toNat, addrLow_toNat, addrHigh_toNat]
  omega

theorem addrLow_addrOfBytes (b1 b2 : Byte) : addrLow (addrOfBytes b1 b2) = b1 := by
  apply BitVec.eq_of_toNat_eq
  have := b1.isLt
  rw [addrLow_toNat, addrOfBytes_toNat]
  omega

theorem addrHigh_addrOfBytes (b1 b2 : Byte) : addrHigh (addrOfBytes b1 b2) = b2 := by
  apply BitVec.eq_of_toNat_eq
  have := b1.isLt
  rw [addrHigh_toNat, addrOfBytes_toNat]
  omega

namespace EncodedForm

/-- A well-formed instruction has the number of operand bytes its opcode says, and the decoder's table gives it back
from its own opcode and operand bytes. -/
def Statement (i : Instr) : Prop :=
  i.wf = true →
    i.operands.length = operandCount i.opcode ∧
    instrOfBytes i.opcode (operandByte i.operands 0) (operandByte i.operands 1) = i

theorem ldaImm (imm8 : Byte) : Statement (.ldaImm imm8) := fun _ => ⟨rfl, rfl⟩

theorem lsrAcc : Statement .lsrAcc := fun _ => ⟨rfl, rfl⟩

theorem lsrZp (zp : Byte) : Statement (.lsrZp zp) := fun _ => ⟨rfl, rfl⟩

theorem lsrZpX (zp : Byte) : Statement (.lsrZpX zp) := fun _ => ⟨rfl, rfl⟩

theorem lsrAbs (addr : Addr) : Statement (.lsrAbs addr) :=
  fun _ => ⟨rfl, congrArg Instr.lsrAbs (addrOfBytes_low_high addr)⟩

theorem lsrAbsX (base : Addr) : Statement (.lsrAbsX base) :=
  fun _ => ⟨rfl, congrArg Instr.lsrAbsX (addrOfBytes_low_high base)⟩

theorem nopUnassigned (op : Byte) : Statement (.nopUnassigned op) := by
  intro h
  simp [Instr.wf, assignedOpcodes] at h
  obtain ⟨h1, h2, h3, h4, h5, h6⟩ := h
  simp [Instr.operands, Instr.opcode, operandCount, instrOfBytes, h1, h2, h3, h4, h5, h6]

end EncodedForm

/-- The family holds of every instruction. -/
theorem encodedForm (i : Instr) : EncodedForm.Statement i := by
  cases i with
  | ldaImm imm8 => exact EncodedForm.ldaImm imm8
  | lsrAcc => exact EncodedForm.lsrAcc
  | lsrZp zp => exact EncodedForm.lsrZp zp
  | lsrZpX zp => exact EncodedForm.lsrZpX zp
  | lsrAbs addr => exact EncodedForm.lsrAbs addr
  | lsrAbsX base => exact EncodedForm.lsrAbsX base
  | nopUnassigned op => exact EncodedForm.nopUnassigned op

end Sys2Proof.Laws
end

