-- ==== Sys2Proof/Laws/Decode.lean ====
section
/-! SUPPORT. The laws of the decoder: operand counts, the shape of an opcode, what decoding answers. -/

namespace Sys2Proof

theorem operandCount_le (op : Byte) : operandCount op ≤ 2 := by
  unfold operandCount
  split
  · decide
  · split <;> decide

/-- Whatever the opcode, the assembled instruction is well formed and keeps the opcode. -/
theorem instrOfBytes_wf (op b1 b2 : Byte) : (instrOfBytes op b1 b2).wf = true ∧ (instrOfBytes op b1 b2).opcode = op := by
  unfold instrOfBytes
  repeat' split
  case isFalse h1 h2 h3 h4 h5 h6 =>
    simp_all [Instr.wf, assignedOpcodes, Instr.opcode]
  all_goals subst_vars; exact ⟨rfl, rfl⟩

/-- The operand bytes of the assembled instruction, by how many its opcode has. -/
theorem instrOfBytes_operands (op b1 b2 : Byte) :
    (instrOfBytes op b1 b2).operands = [b1, b2].take (operandCount op) := by
  unfold instrOfBytes
  repeat' split
  case isFalse h1 h2 h3 h4 h5 h6 => simp_all [Instr.operands, operandCount]
  all_goals subst_vars
  all_goals first
    | rfl
    | (simp only [Instr.operands, Laws.addrLow_addrOfBytes, Laws.addrHigh_addrOfBytes]; rfl)

/-- A list as long as the opcode says decodes. -/
theorem decode_cons {op : Byte} {rest : List Byte} (h : operandCount op ≤ rest.length) :
    decode (op :: rest) =
      .ok (instrOfBytes op (operandByte rest 0) (operandByte rest 1), rest.drop (operandCount op)) := by
  simp only [decode]
  rw [if_neg (by omega)]

/-- Only the operand bytes of the opcode's format matter. -/
theorem instrOfBytes_congr {op b1 b2 c1 c2 : Byte} (h1 : 1 ≤ operandCount op → b1 = c1)
    (h2 : 2 ≤ operandCount op → b2 = c2) : instrOfBytes op b1 b2 = instrOfBytes op c1 c2 := by
  unfold instrOfBytes
  repeat' split
  all_goals subst_vars
  all_goals first
    | rfl
    | rw [h1 (by decide), h2 (by decide)]
    | rw [h1 (by decide)]

end Sys2Proof
end

