-- ==== Sys2Proof/Laws/Ops.lean ====
section
/-! SUPPORT. One lemma per shared operation that says all it can do: the fetches, and each instruction's meaning. -/

namespace Sys2Proof.Machine

theorem State.advancePc_zero (s : State) : s.advancePc 0 = s := by
  simp [State.advancePc, State.setPc]

theorem State.advancePc_add (s : State) (m n : Nat) : (s.advancePc m).advancePc n = s.advancePc (m + n) := by
  simp [State.advancePc, State.setPc, BitVec.add_assoc, BitVec.ofNat_add]

/-- `pc` moves without wrapping inside its 17 bits. -/
theorem State.advancePc_toNat {s : State} {n : Nat} (h : s.pc.toNat + n ≤ 0x10000) :
    (s.advancePc n).pc.toNat = s.pc.toNat + n := by
  simp only [State.advancePc_pc, BitVec.toNat_add, BitVec.toNat_ofNat]
  omega

@[simp] theorem State.advancePc_readByte (s : State) (n a : Nat) : (s.advancePc n).readByte a = s.readByte a := rfl

/-- A fetch inside the space reads at `pc` and advances it by one. -/
theorem fetchByte_inside {s : State} (h : s.pc.toNat ≤ 0xFFFF) :
    fetchByte s = .ok (s.readByte s.pc.toNat, s.advancePc 1) := by
  unfold fetchByte
  rw [if_neg (by simp only [Config.lastAddress]; omega)]
  rfl

/-- A fetch past the space raises and changes nothing. -/
theorem fetchByte_past {s : State} (h : 0xFFFF < s.pc.toNat) : fetchByte s = .error s := by
  unfold fetchByte
  rw [if_pos h]

theorem State.bytesAtPc_succ (s : State) (n : Nat) (h : s.pc.toNat + 1 ≤ 0x10000) :
    s.bytesAtPc (n + 1) = s.readByte s.pc.toNat :: (s.advancePc 1).bytesAtPc n := by
  simp only [State.bytesAtPc, List.range_succ_eq_map, List.map_cons, List.map_map, State.advancePc_toNat h,
    State.advancePc_readByte, Nat.add_zero, List.cons.injEq, true_and]
  refine List.map_congr_left fun k _ => ?_
  simp only [Function.comp_apply, Nat.succ_eq_add_one]
  congr 1
  omega

/-- Operand fetches that stay inside the space read the bytes in order and move `pc` past them. -/
theorem fetchOperands_inside {n : Nat} {s : State} (h : s.pc.toNat + n ≤ 0x10000) :
    fetchOperands n s = .ok (s.bytesAtPc n, s.advancePc n) := by
  induction n generalizing s with
  | zero => simp [fetchOperands, State.bytesAtPc, State.advancePc_zero]
  | succ n ih =>
    have hp := State.advancePc_toNat (s := s) (n := 1) (by omega)
    rw [State.bytesAtPc_succ s n (by omega)]
    simp only [fetchOperands]
    rw [fetchByte_inside (by omega)]
    simp only
    rw [ih (by omega)]
    simp [State.advancePc_add, Nat.add_comm]

/-- Operand fetches that would leave the space raise with `pc` at 0x10000 and nothing else changed. -/
theorem fetchOperands_past {n : Nat} {s : State} (hle : s.pc.toNat ≤ 0x10000) (h : 0x10000 < s.pc.toNat + n) :
    fetchOperands n s = .error (s.setPc 0x10000) := by
  induction n generalizing s with
  | zero => omega
  | succ n ih =>
    simp only [fetchOperands]
    by_cases hp : s.pc.toNat ≤ 0xFFFF
    · have ha := State.advancePc_toNat (s := s) (n := 1) (by omega)
      rw [fetchByte_inside hp]
      simp only
      rw [ih (by omega) (by omega)]
      rfl
    · rw [fetchByte_past (by omega)]
      have : s.pc = 0x10000 := by
        apply BitVec.eq_of_toNat_eq
        change s.pc.toNat = 0x10000
        omega
      simp only [State.setPc, ← this]

theorem State.bytesAtPc_length (s : State) (n : Nat) : (s.bytesAtPc n).length = n := by
  simp [State.bytesAtPc]

theorem State.bytesAtPc_operand {s : State} {n k : Nat} (h : k < n) :
    operandByte (s.bytesAtPc n) k = s.readByte (s.pc.toNat + k) := by
  simp [operandByte, State.bytesAtPc, List.getD_eq_getElem?_getD, h]

/-- What the fetches after the opcode byte give when the whole instruction lies in the space. -/
theorem fetchInstr_inside {s : State} (h : s.pc.toNat + instrLength s.opcodeAtPc ≤ 0x10000) :
    fetchInstr s.opcodeAtPc (s.advancePc 1) = .ok (s.instrAtPc, s.advancePc (instrLength s.opcodeAtPc)) := by
  unfold instrLength at h
  have hp := State.advancePc_toNat (s := s) (n := 1) (by omega)
  unfold fetchInstr
  rw [fetchOperands_inside (by omega)]
  simp only [State.advancePc_add]
  congr 2
  refine instrOfBytes_congr (fun h1 => ?_) (fun h2 => ?_)
  · rw [State.bytesAtPc_operand (by omega), hp]
    rfl
  · rw [State.bytesAtPc_operand (by omega), hp]
    rfl

/-- What they give when an operand byte lies past the space. -/
theorem fetchInstr_past {s : State} (hpc : s.pc.toNat ≤ 0xFFFF)
    (h : 0x10000 < s.pc.toNat + instrLength s.opcodeAtPc) :
    fetchInstr s.opcodeAtPc (s.advancePc 1) = .error (s.setPc 0x10000) := by
  unfold instrLength at h
  have hp := State.advancePc_toNat (s := s) (n := 1) (by omega)
  unfold fetchInstr
  rw [fetchOperands_past (by omega) (by omega)]
  rfl

section
variable (s : State)

theorem exec_ldaImm (imm8 : Byte) : exec (.ldaImm imm8) s = .next ((s.setA imm8).setF (s.f.afterLoad imm8)) := rfl

theorem exec_lsrAcc : exec .lsrAcc s = .next ((s.setF (s.f.afterLsr s.a)).setA (lsrResult s.a)) := rfl

theorem exec_lsrZp (zp : Byte) : exec (.lsrZp zp) s = .next (lsrMemory (eaZp zp) s) := rfl

theorem exec_lsrZpX (zp : Byte) : exec (.lsrZpX zp) s = .next (lsrMemory (eaZpX zp s.x) s) := rfl

theorem exec_lsrAbs (addr : Addr) : exec (.lsrAbs addr) s = .next (lsrMemory (eaAbs addr) s) := rfl

theorem exec_lsrAbsX (base : Addr) : exec (.lsrAbsX base) s = .next (lsrMemory (eaAbsX base s.x) s) := rfl

theorem exec_nopUnassigned (op : Byte) : exec (.nopUnassigned op) s = .next s := rfl

end

/-- The three shapes a meaning has: a register result, a memory result at an address, no effect. -/
theorem exec_cases {i : Instr} {s t : State} (h : exec i s = .next t) :
    (∃ v f, t = (s.setA v).setF f ∧ f.i = s.f.i ∧ f.d = s.f.d ∧ f.b = s.f.b ∧ f.u = s.f.u ∧ f.v = s.f.v) ∨
    (∃ ea, t = lsrMemory ea s) ∨ t = s := by
  cases i with
  | ldaImm imm8 =>
    rw [exec_ldaImm] at h
    injection h with h
    exact .inl ⟨imm8, _, h.symm, rfl, rfl, rfl, rfl, rfl⟩
  | lsrAcc =>
    rw [exec_lsrAcc] at h
    injection h with h
    exact .inl ⟨lsrResult s.a, s.f.afterLsr s.a, h.symm, rfl, rfl, rfl, rfl, rfl⟩
  | lsrZp zp => injection h with h; exact .inr (.inl ⟨_, h.symm⟩)
  | lsrZpX zp => injection h with h; exact .inr (.inl ⟨_, h.symm⟩)
  | lsrAbs addr => injection h with h; exact .inr (.inl ⟨_, h.symm⟩)
  | lsrAbsX base => injection h with h; exact .inr (.inl ⟨_, h.symm⟩)
  | nopUnassigned op => injection h with h; exact .inr (.inr h.symm)

/-- No meaning touches `pc`, the run status, the fault record or the inert state. -/
theorem exec_keeps {i : Instr} {s t : State} (h : exec i s = .next t) :
    t.pc = s.pc ∧ t.rs = s.rs ∧ t.fa = s.fa ∧ s.SameInert t := by
  rcases exec_cases h with ⟨v, f, rfl, hi, hd, hb, hu, hv⟩ | ⟨ea, rfl⟩ | rfl
  · exact ⟨rfl, rfl, rfl, ⟨rfl, rfl, rfl, hi, hd, hb, hu, hv, rfl, rfl, rfl⟩⟩
  · exact ⟨rfl, rfl, rfl, ⟨rfl, rfl, rfl, rfl, rfl, rfl, rfl, rfl, rfl, rfl, rfl⟩⟩
  · exact ⟨rfl, rfl, rfl, ⟨rfl, rfl, rfl, rfl, rfl, rfl, rfl, rfl, rfl, rfl, rfl⟩⟩

/-- Every meaning keeps memory canonical. -/
theorem exec_wf {i : Instr} {s t : State} (h : exec i s = .next t) (hm : s.mem.wf = true) : t.mem.wf = true := by
  rcases exec_cases h with ⟨v, f, rfl, -⟩ | ⟨ea, rfl⟩ | rfl
  · exact hm
  · exact lsrMemory_wf hm ea
  · exact hm

/-- No meaning stops. -/
theorem exec_answers (i : Instr) (s : State) : ∃ t, exec i s = .next t := by
  cases i <;> exact ⟨_, rfl⟩

end Sys2Proof.Machine
end

