-- ==== Sys2Proof/Laws/Step.lean ====
section
/-! SUPPORT. All that one step can do, said once. -/

namespace Sys2Proof.Machine

theorem endedFault_running {s : State} (h : s.rs = .running) : endedFault s = none := by
  simp [endedFault, h]

/-- A running session whose instruction lies whole in the space: the step runs it and checks for the end. -/
theorem step_whole {s u : State} (hr : s.rs = .running)
    (hfit : s.pc.toNat + instrLength s.opcodeAtPc ≤ 0x10000)
    (hu : exec s.instrAtPc (s.advancePc (instrLength s.opcodeAtPc)) = .next u) :
    step s = .next (terminationCheck u) := by
  have hpc : s.pc.toNat ≤ 0xFFFF := by unfold instrLength at hfit; omega
  unfold step
  simp only [endedFault_running hr, fetchByte_inside hpc]
  rw [show s.readByte s.pc.toNat = s.opcodeAtPc from rfl, fetchInstr_inside hfit]
  simp only [hu]

/-- A running session whose instruction runs past the space: the step raises. -/
theorem step_past {s : State} (hr : s.rs = .running) (hpc : s.pc.toNat ≤ 0xFFFF)
    (hpast : 0x10000 < s.pc.toNat + instrLength s.opcodeAtPc) :
    step s = .next (raiseAddressRangeError s.opcodeAtPc (s.setPc 0x10000)) := by
  unfold step
  simp only [endedFault_running hr, fetchByte_inside hpc]
  rw [show s.readByte s.pc.toNat = s.opcodeAtPc from rfl, fetchInstr_past hpc hpast]

/-- Everything a step that answers can have done. -/
theorem step_cases {s t : State} (h : step s = .next t) :
    s.rs = .running ∧ s.pc.toNat ≤ 0xFFFF ∧
    ((0x10000 < s.pc.toNat + instrLength s.opcodeAtPc ∧
        t = raiseAddressRangeError s.opcodeAtPc (s.setPc 0x10000)) ∨
     (s.pc.toNat + instrLength s.opcodeAtPc ≤ 0x10000 ∧
        ∃ u, exec s.instrAtPc (s.advancePc (instrLength s.opcodeAtPc)) = .next u ∧ t = terminationCheck u)) := by
  have hr : s.rs = .running := by
    cases hrs : s.rs with
    | running => rfl
    | normalTermination => simp [step, endedFault, hrs] at h
    | addressRangeError => simp [step, endedFault, hrs] at h
  have hpc : s.pc.toNat ≤ 0xFFFF := by
    by_contra hp
    simp [step, endedFault_running hr, fetchByte_past (show 0xFFFF < s.pc.toNat by omega)] at h
  refine ⟨hr, hpc, ?_⟩
  by_cases hfit : s.pc.toNat + instrLength s.opcodeAtPc ≤ 0x10000
  · obtain ⟨u, hu⟩ := exec_answers s.instrAtPc (s.advancePc (instrLength s.opcodeAtPc))
    rw [step_whole hr hfit hu] at h
    injection h with h
    exact .inr ⟨hfit, u, hu, h.symm⟩
  · rw [step_past hr hpc (by omega)] at h
    injection h with h
    exact .inl ⟨by omega, h.symm⟩

end Sys2Proof.Machine
end

