-- ==== Sys2Proof/Laws/Run.lean ====
section
/-! SUPPORT. How a run is taken apart: one step in front of the others. -/

namespace Sys2Proof.Machine

@[simp] theorem stepN_zero (s : State) : stepN 0 s = .next s := rfl

/-- One step in front. -/
theorem stepN_of_step {k : Nat} {s u : State} (h : step s = .next u) : stepN (k + 1) s = stepN k u := by
  simp only [stepN, h]

/-- The first of several steps that answer has answered. -/
theorem stepN_succ_cases {k : Nat} {s t : State} (h : stepN (k + 1) s = .next t) :
    ∃ u, step s = .next u ∧ stepN k u = .next t := by
  simp only [stepN] at h
  cases hs : step s with
  | next u => exact ⟨u, rfl, by simpa only [hs] using h⟩
  | fault e => simp [hs] at h
  | refused r => simp [hs] at h

/-- The loop takes one step of a running session. -/
theorem runFor_of_step {k : Nat} {s u : State} (hr : s.rs = .running) (h : step s = .next u) :
    runFor (k + 1) s = runFor k u := by
  simp only [runFor, hr, h]

/-- The loop does nothing to an ended session. -/
theorem runFor_ended {k : Nat} {s : State} (hr : s.rs ≠ .running) : runFor k s = s := by
  cases k with
  | zero => rfl
  | succ k => cases h : s.rs <;> simp_all [runFor]

end Sys2Proof.Machine
end

