-- ==== Sys2Proof/Machine/Assembly.lean ====
section
/-! DEFINITION. The assembler spellings (30_encoding.md R78, R79). No rule of execution uses them: the machine decodes
bytes. -/

namespace Sys2Proof.Machine

/-- One hexadecimal digit, capital letters as in R78's examples. -/
def hexDigit (n : Nat) : Char := if n < 10 then Char.ofNat (48 + n) else Char.ofNat (55 + n)

/-- `hh`: a byte as two digits. -/
def hexByte (b : Byte) : String := String.ofList [hexDigit (b.toNat / 16), hexDigit (b.toNat % 16)]

/-- `hhhh`: an address as four digits, the high byte first in text (R78). -/
def hexAddr (a : Addr) : String := hexByte (addrHigh a) ++ hexByte (addrLow a)

/-- The spelling of each instruction; an unassigned opcode is a data byte, and `NOP` is no mnemonic (R78, R79). -/
def spelling : Instr → String
  | .ldaImm imm8 => "LDA #$" ++ hexByte imm8
  | .lsrAcc => "LSR A"
  | .lsrZp zp => "LSR $" ++ hexByte zp
  | .lsrZpX zp => "LSR $" ++ hexByte zp ++ ",X"
  | .lsrAbs addr => "LSR $" ++ hexAddr addr
  | .lsrAbsX base => "LSR $" ++ hexAddr base ++ ",X"
  | .nopUnassigned op => ".byte $" ++ hexByte op

/-- The form an assembler chooses for LSR of an address: zero page below 0x100 unless the text forces the absolute form
(R78). -/
def assembleLsr (forceAbsolute : Bool) (addr : Addr) : Instr :=
  if addr.toNat < 0x100 ∧ forceAbsolute = false then .lsrZp (addrLow addr) else .lsrAbs addr

end Sys2Proof.Machine
end

