-- ==== Sys2Proof/Tests/Slice0.lean ====
section
/-! SUPPORT. The model's own tests: the well-formedness smoke test, decoding of words written out from 30_encoding.md, the
vectors of 95_test_vectors.md (by their ids), and a witness for the hypotheses of every statement that has some. -/

namespace Sys2Proof.Tests

open Sys2Proof.Machine Sys2Proof.Claims

/-- A session at address `at_` with these bytes there, on top of reset memory. -/
def sessionAt (at_ : Nat) (bytes : List Byte) : State :=
  (State.reset.setPc (BitVec.ofNat 17 at_)).setMem (State.reset.mem.writeBytes at_ bytes)

/-- Whether a step or a meaning answers a next state with a property. -/
def nextHas (o : Host.Outcome State Fault Refusal) (p : State → Bool) : Bool :=
  match o with
  | .next t => p t
  | .fault _ => false
  | .refused _ => false

/-- Whether a step stops with this fault. -/
def faultsWith (o : Host.Outcome State Fault Refusal) (e : Fault) : Bool :=
  match o with
  | .next _ => false
  | .fault r => r == e
  | .refused _ => false

/-- The load refusal an image gets, if it is refused. -/
def loadRefusal (img : List Byte) : Option LoadRefusal :=
  match loadImage deriveMapperId img with
  | .ok _ => none
  | .error r => some r

/-- `hdr(p, c, f6, f7)` of 95_test_vectors.md. -/
def hdr (p c f6 f7 : Byte) : List Byte := [0x4E, 0x45, 0x53, 0x1A, p, c, f6, f7, 0, 0, 0, 0, 0, 0, 0, 0]

/-! ## Well-formedness: the one check, with every opcode that must be refused (R75) -/

theorem test_assigned_opcode_is_no_unassigned_noop :
    (assignedOpcodes.all fun op => !(Instr.nopUnassigned op).wf) = true := by decide

theorem test_unassigned_opcode_is_wellformed : (Instr.nopUnassigned 0x4C).wf = true := by decide

/-! ## Words written out from R68 and R72 -/

theorem test_decode_lda_imm : decode [0b10101001, 0b10000000] = .ok (.ldaImm 0x80, []) := by decide

theorem test_decode_lsr_acc : decode [0b01001010, 0x99] = .ok (.lsrAcc, [0x99]) := by decide

theorem test_decode_lsr_zp : decode [0b01000110, 0b00010000] = .ok (.lsrZp 0x10, []) := by decide

theorem test_decode_lsr_zp_x : decode [0b01010110, 0b11111000] = .ok (.lsrZpX 0xF8, []) := by decide

theorem test_decode_lsr_abs : decode [0b01001110, 0b00110100, 0b00010010] = .ok (.lsrAbs 0x1234, []) := by decide

theorem test_decode_lsr_abs_x : decode [0b01011110, 0b11111111, 0b01111111] = .ok (.lsrAbsX 0x7FFF, []) := by decide

theorem test_decode_unassigned : decode [0b01001100, 0x00, 0x90] = .ok (.nopUnassigned 0x4C, [0x00, 0x90]) := by decide

theorem test_decode_names_a_missing_operand : decode [0x4E, 0x00] = .error (.missingOperand 0x4E) := by decide

theorem test_decode_names_an_empty_list : decode [] = .error .noOpcode := by decide

theorem test_table_word_numbers_bytes_from_the_low_end : decodeTableWord 24 0x7FFF5E = some (.lsrAbsX 0x7FFF) := by decide

theorem test_table_word_zero_fills_operands : decodeTableWord 8 0xA9 = some (.ldaImm 0x00) := by decide

/-! ## Spellings (R78) -/

theorem test_spelling_lsr_abs_x : spelling (.lsrAbsX 0x7FFF) = "LSR $7FFF,X" := by decide

theorem test_assembler_chooses_zero_page :
    assembleLsr false 0x0010 = .lsrZp 0x10 ∧ assembleLsr true 0x0010 = .lsrAbs 0x0010 := by decide

/-! ## LDA immediate (S4, S5) -/

theorem test_S5_lda_80 :
    nextHas (step (sessionAt 0x8000 [0xA9, 0x80])) (fun t => t.a == 0x80 && !t.f.z && t.f.n && t.pc == 0x8002) = true := by
  decide

theorem test_S4_lda_00 :
    nextHas (step (sessionAt 0x8000 [0xA9, 0x00])) (fun t => t.a == 0 && t.f.z && !t.f.n && t.rs == .running) = true := by
  decide

/-! ## LSR A (S7, T11) -/

theorem test_S7_lsr_a_01 :
    nextHas (exec .lsrAcc (State.reset.setA 0x01)) (fun t => t.a == 0 && t.f.c && t.f.z && !t.f.n) = true := by decide

theorem test_T11_lsr_a_at_the_top :
    nextHas (step ((sessionAt 0xFFFF [0x4A]).setA 0x33))
      (fun t => t.a == 0x19 && t.f.c && t.rs == .normalTermination && t.pc == 0x10000) = true := by decide

/-! ## LSR memory forms (M1, M4, M5, M7, M11, M13, T3) -/

theorem test_M1_lsr_zp :
    nextHas (step ((sessionAt 0x8000 [0x46, 0x10]).writeByte 0x10 0x81))
      (fun t => t.readByte 0x10 == 0x40 && t.f.c && !t.f.z && t.pc == 0x8002) = true := by decide

theorem test_T3_lsr_zp_operand_past_the_top :
    nextHas (step ((sessionAt 0xFFFF [0x46]).setA 0x33))
      (fun t => t.a == 0x33 && t.rs == .addressRangeError && t.fa == some { addr := 0x10000, opcode := 0x46 } &&
        t.pc == 0x10000) = true := by decide

theorem test_M5_lsr_zp_x_wraps_in_page_0 :
    nextHas (exec (.lsrZpX 0xF8) (({ State.reset with x := 0x10 }.writeByte 0x08 0x40).writeByte 0x108 0x77))
      (fun t => t.readByte 0x08 == 0x20 && t.readByte 0x108 == 0x77 && !t.f.c) = true := by decide

theorem test_M4_lsr_zp_x :
    nextHas (step { (sessionAt 0x8000 [0x56, 0x10]).writeByte 0x15 0x03 with x := 0x05 })
      (fun t => t.readByte 0x15 == 0x01 && t.f.c && t.x == 0x05) = true := by decide

theorem test_M7_lsr_abs_is_little_endian :
    nextHas (step (((sessionAt 0x8000 [0x4E, 0x34, 0x12]).writeByte 0x1234 0x80).writeByte 0x3412 0x11))
      (fun t => t.readByte 0x1234 == 0x40 && t.readByte 0x3412 == 0x11 && t.pc == 0x8003) = true := by decide

theorem test_M11_lsr_abs_x_carries_into_the_high_byte :
    nextHas (exec (.lsrAbsX 0x00FF) (({ State.reset with x := 1 }.writeByte 0x100 0x02).writeByte 0 0x09))
      (fun t => t.readByte 0x100 == 0x01 && t.readByte 0 == 0x09 && !t.f.c) = true := by decide

theorem test_M13_lsr_abs_x_wraps_at_16_bits :
    nextHas (exec (.lsrAbsX 0xFFF0) ({ State.reset with x := 0x20 }.writeByte 0x10 0x06))
      (fun t => t.readByte 0x10 == 0x03 && !t.f.c && !t.f.z) = true := by decide

/-! ## Unassigned opcodes (L2.6, T12) -/

theorem test_L26_4C_is_no_jump :
    nextHas (step (sessionAt 0x8000 [0x4C, 0xA9, 0x05])) (fun t => t == (sessionAt 0x8000 [0x4C, 0xA9, 0x05]).setPc 0x8001)
      = true := by decide

theorem test_T12_noop_ends_the_run :
    nextHas (step (sessionAt 0xFFFF [0x00])) (fun t => t.rs == .normalTermination && t.fa == none) = true := by decide

/-! ## The top of the address space (T7) and the end of a run -/

theorem test_T7_second_operand_past_the_top_writes_nothing :
    nextHas (step (sessionAt 0xFFFE [0x4E, 0x00]))
      (fun t => t.mem == (sessionAt 0xFFFE [0x4E, 0x00]).mem && t.rs == .addressRangeError) = true := by decide

theorem test_ended_run_has_no_step :
    faultsWith (step (State.reset.setRs .normalTermination)) .runEndedNormally = true := by decide

/-! ## The load step (H1 to H12, L2.2) -/

theorem test_H1_truncated : loadRefusal ((hdr 1 0 0 0).take 15) = some (.formatError .truncated) := by decide

theorem test_H6_signature_before_sentinel :
    loadRefusal ([0x58, 0x59, 0x5A, 0x00] ++ List.replicate 12 0) = some (.formatError .signatureMismatch) := by decide

theorem test_H5_missing_sentinel :
    loadRefusal ([0x4E, 0x45, 0x53, 0x00] ++ List.replicate 12 0) = some (.formatError .missingEofMarker) := by decide

theorem test_H9_mapper_before_sizes : loadRefusal (hdr 3 0 0x10 0) = some (.unsupportedMapper 1) := by decide

theorem test_H8_prg_oversize : loadRefusal (hdr 3 0 0 0) = some (.prgOversize 49152) := by decide

theorem test_H11_payload_truncated : loadRefusal (hdr 1 0 0 0) = some (.payloadTruncated 16) := by decide

theorem test_H12_no_prg_rom_loads : loadRefusal (hdr 0 0 0 0) = none := by decide

theorem test_L22_mapper_id_1F_2E :
    (match parseHeader (hdr 0 0 0x1F 0x2E) with | .ok h => deriveMapperId h == 0x21 | .error _ => false) = true := by decide

/-! ## The host's word placement -/

theorem test_fetch_word_runs_first_after_reset :
    nextHas (step (State.reset.withFetchWord 16 0x80A9)) (fun t => t.a == 0x80 && t.f.n && t.pc == 0x8002) = true := by
  decide

/-! ## Witnesses: the hypotheses of each statement that has some, met together -/

/-- A one-bank image with mapper 0 (program P0's shape, with `LSR A` in every byte). -/
def oneBankImage : List Byte := hdr 1 0 0 0 ++ List.replicate 16384 0x4A

theorem oneBankImage_length : oneBankImage.length = 16400 := by
  rw [oneBankImage, List.length_append, List.length_replicate]
  rfl

/-- A two-bank image with mapper 0, each bank of its own bytes. -/
def twoBankImage : List Byte := hdr 2 0 0 0 ++ (List.replicate 16384 0x4A ++ List.replicate 16384 0xA9)

theorem twoBankImage_length : twoBankImage.length = 32784 := by
  rw [twoBankImage, List.length_append, List.length_append, List.length_replicate, List.length_replicate]
  rfl

theorem oneBank_loads : ∃ m, loadProgram 0 16384 oneBankImage construct = .ok m :=
  ⟨_, loadProgram_ok.mpr ⟨rfl, by decide, by rw [oneBankImage_length]; decide, rfl⟩⟩

theorem witness_LdaImmWritesOnlyAZN : ∃ imm8 s t, exec (.ldaImm imm8) s = .next t := ⟨0x80, State.reset, _, rfl⟩

theorem witness_LsrAccWritesOnlyACZN : ∃ s t, exec .lsrAcc s = .next t := ⟨State.reset.setA 0x03, _, rfl⟩

theorem witness_LsrMemoryFormsShiftTheByteAtTheirAddress :
    ((State.reset.setA 0x03).writeByte 0x10 0x81).mem.wf = true := by decide

theorem witness_LsrMemoryFormsWriteOnlyOneByte :
    (State.reset.writeByte 0xFFFF 0x01).mem.wf = true ∧ (∃ t, exec (.lsrZp 0xFF) (State.reset.writeByte 0xFFFF 0x01) = .next t) ∧
    (∃ t, exec (.lsrZpX 0xFF) (State.reset.writeByte 0xFFFF 0x01) = .next t) ∧
    (∃ t, exec (.lsrAbs 0xFFFF) (State.reset.writeByte 0xFFFF 0x01) = .next t) ∧
    (∃ t, exec (.lsrAbsX 0xFFFF) (State.reset.writeByte 0xFFFF 0x01) = .next t) :=
  ⟨by decide, ⟨_, rfl⟩, ⟨_, rfl⟩, ⟨_, rfl⟩, ⟨_, rfl⟩⟩

theorem witness_UnassignedOpcodesAreOneByteNoOps : (0xFF : Byte) ∉ assignedOpcodes := by decide

/-- Both cases of the step over an unassigned opcode: inside the space and at 0xFFFF. -/
theorem witness_UnassignedOpcodeStepMovesPcOnly :
    State.reset.rs = .running ∧ State.reset.pc.toNat ≤ 0xFFFE ∧ State.reset.opcodeAtPc ∉ assignedOpcodes ∧
    (sessionAt 0xFFFF []).rs = .running ∧ (sessionAt 0xFFFF []).pc.toNat = 0xFFFF ∧
    (sessionAt 0xFFFF []).opcodeAtPc ∉ assignedOpcodes := by decide

theorem witness_ReadByteMasksTheAddress : 0xFFFF < 65536 := by decide

theorem witness_EveryAddressIsReadableAndWritable : (State.reset.writeByte 0x18000 0x02).mem.wf = true := by decide

theorem witness_WriteChangesOneByteAndIsIdempotent :
    (State.reset.writeByte 0 0xFF).mem.wf = true ∧ 1 % 65536 ≠ 0 % 65536 := by decide

theorem witness_MemoryOperationsKeepCanonicalForm :
    State.reset.mem.wf = true ∧ Memory.wf [(0, 0xFF)] = true ∧ 65534 + [(0xA9 : Byte), 0x05].length ≤ 65536 := by decide

theorem witness_CanonicalMemoryIsFixedByItsBytes :
    ∃ m n : Memory, m.wf = true ∧ n.wf = true ∧ ∀ a : Nat, a < 65536 → m.read a = n.read a :=
  ⟨(Memory.write [] 3 7), [(3, 7)], by decide, by decide, fun _ _ => rfl⟩

theorem witness_WrittenByteIsTheNextFetch : State.reset.mem.wf = true ∧ State.reset.pc.toNat ≤ 0xFFFF := by decide

theorem witness_MirrorIsACopyNotAnAlias : State.reset.mem.wf = true ∧ 0 < 16384 ∧ 16383 < 16384 := by decide

theorem witness_DecodeOfEncodeIsTheInstruction :
    (Instr.lsrAbsX 0xFFFF).wf = true ∧ (Instr.nopUnassigned 0x00).wf = true := by decide

theorem witness_EncodeOfDecodeIsTheBytes : decode [0x5E, 0xFF, 0xFF, 0x00] = .ok (.lsrAbsX 0xFFFF, [0x00]) := by decide

theorem witness_OpcodeAloneFixesTheInstructionLength : 2 ≤ [(0xFF : Byte), 0xFF].length := by decide

theorem witness_InstructionLengthTable :
    (0x56 : Byte) ∈ [(0xA9 : Byte), 0x46, 0x56] ∧ (0x5E : Byte) ∈ [(0x4E : Byte), 0x5E] ∧
    (0x4A : Byte) ∉ [(0xA9 : Byte), 0x46, 0x56, 0x4E, 0x5E] := by decide

theorem witness_FetchByteReadsAtPcAndAdvancesByOne :
    (sessionAt 0xFFFF []).pc.toNat ≤ 0xFFFF ∧ 0xFFFF < (sessionAt 0x10000 []).pc.toNat := by decide

theorem witness_StepRunsTheDecodedInstruction :
    (sessionAt 0xFFFD [0x4E, 0x00, 0x80]).rs = .running ∧ (sessionAt 0xFFFD [0x4E, 0x00, 0x80]).pc.toNat + 3 ≤ 0x10000 ∧
    decode ((sessionAt 0xFFFD [0x4E, 0x00, 0x80]).bytesAtPc 3) = .ok (.lsrAbs 0x8000, []) := by decide

theorem witness_OperandFetchPastTheTopRaises :
    (sessionAt 0xFFFE [0x5E]).rs = .running ∧ (sessionAt 0xFFFE [0x5E]).pc.toNat ≤ 0xFFFF ∧
    0x10000 < (sessionAt 0xFFFE [0x5E]).pc.toNat + instrLength (sessionAt 0xFFFE [0x5E]).opcodeAtPc := by decide

theorem witness_PcAdvancesOncePerFetchedByte :
    (∃ b t, fetchByte State.reset = .ok (b, t)) ∧ (∃ i s t, exec i s = .next t) ∧
    ∃ s t, step s = .next t ∧ t.rs ≠ .addressRangeError :=
  ⟨⟨_, _, rfl⟩, ⟨.lsrAcc, State.reset, _, rfl⟩, ⟨State.reset, _, rfl, by decide⟩⟩

/-- One step for each status a step can leave. -/
theorem witness_LastByteDecidesTheRunStatus :
    nextHas (step (sessionAt 0xFFFD [0xA9])) (fun t => t.rs == .running) = true ∧
    nextHas (step (sessionAt 0xFFFE [0xA9])) (fun t => t.rs == .normalTermination) = true ∧
    nextHas (step (sessionAt 0xFFFF [0xA9])) (fun t => t.rs == .addressRangeError) = true := by decide

theorem witness_TerminationResetsNothing :
    ∃ s t, step s = .next t ∧ t.rs = .normalTermination := ⟨sessionAt 0xFFFE [0xA9, 0x80], _, rfl, by decide⟩

theorem witness_EndedRunHasNoFurtherStep :
    (State.reset.setRs .normalTermination).rs = .normalTermination ∧
    (State.reset.setRs .addressRangeError).rs = .addressRangeError ∧ ∃ t, step State.reset = .next t :=
  ⟨rfl, rfl, _, rfl⟩

theorem witness_EveryEnabledStepAnswers : State.reset.rs = .running ∧ State.reset.pc.toNat ≤ 0xFFFF := by decide

theorem witness_FetchWordIsTheNextInstruction :
    (sessionAt 0xFFFD []).rs = .running ∧ (sessionAt 0xFFFD []).pc.toNat ≤ 0xFFFD ∧ (sessionAt 0xFFFD []).mem.wf = true ∧
    decodeTableWord 24 0xFFFF5E = some (.lsrAbsX 0xFFFF) := by decide

theorem reset_legal : State.reset.Legal where
  runningPc _ := by decide
  endedPc h := absurd rfl h
  noFault _ := rfl
  fault h := by cases h
  memory := rfl
  bus := ⟨rfl, .inl rfl, 0, by decide, rfl⟩

theorem witness_StepKeepsSessionLegal : State.reset.Legal ∧ ∃ t, step State.reset = .next t := ⟨reset_legal, _, rfl⟩

theorem witness_BootedSessionIsLegal : ∃ init s, boot deriveMapperId init (hdr 0 0xFF 0x0F 0x0F) = .ok s :=
  ⟨Config.resetRegs, _, rfl⟩

theorem witness_InertStateKeepsItsValueForTheWholeRun : ∃ s t, stepN 2 s = .next t :=
  ⟨sessionAt 0xFFFD [0x4A, 0xA9, 0x01], _, rfl⟩

/-- Two sessions that agree on what is read and differ in every flag, and two that differ in all else that is not read: each
clause about one field has a pair that agrees on that field and not on all of the others. -/
theorem witness_FlagsAndInertStateAreNeverRead :
    State.reset.SameRead (State.reset.setF ⟨true, true, true, true, true, true, true, true⟩) ∧
    State.reset.SameRead { State.reset with
      y := 1, sp := 0xFD, fa := some ⟨0x10000, 0xA9⟩, mapperId := 1, prgBytes := 16384, chrBytes := 8192 } ∧
    ∃ t, stepN 2 State.reset = .next t := ⟨⟨rfl, rfl, rfl, rfl, rfl⟩, ⟨rfl, rfl, rfl, rfl, rfl⟩, _, rfl⟩

theorem witness_OnlyNamedInstructionsWriteAAndFlags :
    nextHas (step (sessionAt 0x8000 [0xA9, 0x80])) (fun t => t.a != 0 && t.f.n) = true ∧
    nextHas (step ((sessionAt 0x8000 [0x4A]).setA 0x01)) (fun t => t.f.c && t.f.z) = true := by decide

theorem witness_OnlyLsrMemoryFormsWriteMemory :
    (sessionAt 0x8000 [0x4E, 0x00, 0x80]).mem.wf = true ∧
    nextHas (step (sessionAt 0x8000 [0x4E, 0x00, 0x80])) (fun t => t.readByte 0x8000 != 0x4E) = true := by decide

/-- The last two bytes of the space hold one-byte instructions. -/
theorem witness_OneByteCodeRunsToTheTop :
    (sessionAt 0xFFFE [0x4A, 0x00]).rs = .running ∧ (sessionAt 0xFFFE [0x4A, 0x00]).pc.toNat ≤ 0xFFFF ∧
    ∀ a : Nat, (sessionAt 0xFFFE [0x4A, 0x00]).pc.toNat ≤ a → a ≤ 0xFFFF →
      instrLength ((sessionAt 0xFFFE [0x4A, 0x00]).readByte a) = 1 := by
  refine ⟨by decide, by decide, fun a h1 h2 => ?_⟩
  have h3 : 0xFFFE ≤ a := h1
  have : a = 0xFFFE ∨ a = 0xFFFF := by omega
  rcases this with rfl | rfl <;> decide

theorem witness_HeaderIsTheFirstSixteenBytes : ([] : List Byte).length < 16 ∧ 16 ≤ (hdr 1 0 0 0).length := by decide

/-- A header for each of the three outcomes of the validation. -/
theorem witness_SignatureIsCheckedBeforeTheSentinel :
    (∃ h, parseHeader ([0x6E, 0x65, 0x73, 0x1A] ++ List.replicate 12 0) = .ok h ∧
      h.sig.toList.take 3 ≠ [0x4E, 0x45, 0x53]) ∧
    (∃ h, parseHeader ([0x4E, 0x45, 0x53, 0x00] ++ List.replicate 12 0) = .ok h ∧
      h.sig.toList.take 3 = [0x4E, 0x45, 0x53] ∧ h.sig[3] ≠ 0x1A) ∧
    ∃ h, parseHeader (hdr 0 0 0 0) = .ok h ∧ h.sig.toList.take 3 = [0x4E, 0x45, 0x53] ∧ h.sig[3] = 0x1A :=
  ⟨⟨_, rfl, by decide⟩, ⟨_, rfl, by decide, by decide⟩, ⟨_, rfl, by decide, by decide⟩⟩

/-- An image for each clause about a refused load. -/
theorem witness_LoadReportsTheFirstFailingCheck_refused :
    ((hdr 1 0 0 0).take 15).length < 16 ∧
    (16 ≤ ([0x6E, 0x65, 0x73, 0x1A] ++ List.replicate 12 (0 : Byte)).length ∧
      ¬HasToken ([0x6E, 0x65, 0x73, 0x1A] ++ List.replicate 12 0)) ∧
    (HasToken ([0x4E, 0x45, 0x53, 0x00] ++ List.replicate 12 0) ∧
      imageByte ([0x4E, 0x45, 0x53, 0x00] ++ List.replicate 12 0) 3 ≠ 0x1A) ∧
    (∃ h, parseHeader (hdr 0 0 0x10 0) = .ok h ∧ HasToken (hdr 0 0 0x10 0) ∧ deriveMapperId h ≠ 0) ∧
    (∃ h, parseHeader (hdr 3 0 0 0) = .ok h ∧ HasToken (hdr 3 0 0 0) ∧ deriveMapperId h = 0 ∧ 2 < h.prgUnits.toNat) ∧
    ∃ h, parseHeader (hdr 2 0 0 0) = .ok h ∧ HasToken (hdr 2 0 0 0) ∧ deriveMapperId h = 0 ∧ h.prgUnits.toNat ≤ 2 ∧
      (hdr 2 0 0 0).length < 16 + h.prgUnits.toNat * 16384 := by
  refine ⟨by decide, ⟨by decide, ?_⟩, ⟨⟨rfl, rfl, rfl⟩, by decide⟩, ⟨_, rfl, ⟨rfl, rfl, rfl⟩, by decide⟩,
    ⟨_, rfl, ⟨rfl, rfl, rfl⟩, by decide, by decide⟩, ⟨_, rfl, ⟨rfl, rfl, rfl⟩, by decide, by decide, by decide⟩⟩
  rintro ⟨h, -⟩
  exact absurd h (by decide)

theorem witness_LoadReportsTheFirstFailingCheck_loaded :
    ∃ h, parseHeader (hdr 0 0 0 0) = .ok h ∧ HasToken (hdr 0 0 0 0) ∧ imageByte (hdr 0 0 0 0) 3 = 0x1A ∧
      deriveMapperId h = 0 ∧ h.prgUnits.toNat ≤ 2 ∧ 16 + h.prgUnits.toNat * 16384 ≤ (hdr 0 0 0 0).length :=
  ⟨_, rfl, ⟨rfl, rfl, rfl⟩, rfl, by decide, by decide, by decide⟩

theorem witness_PrgRomIsProjectedAtPrgBase : 16384 ≤ 32768 ∧ 16 + 16384 ≤ oneBankImage.length ∧ 16383 < 16384 := by
  rw [oneBankImage_length]
  decide

/-- One bank for the first clause, no bank and two banks for the second. -/
theorem witness_OneBankIsMirroredAndNoOtherSizeIs :
    (∃ m, loadProgram 0 16384 oneBankImage construct = .ok m) ∧
    (∃ m, loadProgram 0 0 oneBankImage construct = .ok m) ∧ 0 ≠ 16384 ∧
    (∃ m, loadProgram 0 32768 twoBankImage construct = .ok m) ∧ 32768 ≠ 16384 :=
  ⟨oneBank_loads, ⟨_, loadProgram_ok.mpr ⟨rfl, by decide, by rw [oneBankImage_length]; decide, rfl⟩⟩, by decide,
    ⟨_, loadProgram_ok.mpr ⟨rfl, by decide, by rw [twoBankImage_length]; decide, rfl⟩⟩, by decide⟩

theorem witness_UnprojectedBytesAreZeroAtTheFirstStep :
    ∃ s, boot deriveMapperId Config.resetRegs (hdr 0 0 0 0) = .ok s ∧ 0x7FFF < 0x10000 ∧
      ¬(0x8000 ≤ 0x7FFF ∧ 0x7FFF < 0x8000 + s.prgBytes) ∧ ¬(s.prgBytes = 16384 ∧ 0xC000 ≤ 0x7FFF) :=
  ⟨_, rfl, by decide, by decide, by decide⟩

/-- Two images that differ in every header bit no rule reads. -/
theorem witness_UnusedImageBitsDoNotChangeTheLoad :
    SameLoadInput (hdr 0 0 0 0) [0x4E, 0x45, 0x53, 0x1A, 0, 0, 0x0F, 0x0F, 1, 2, 3, 4, 5, 6, 7, 8] := by
  refine ⟨.inl rfl, fun i hi => ?_, rfl, rfl, fun i hi => absurd hi (by simp [hdr, imageByte])⟩
  have : i = 0 ∨ i = 1 ∨ i = 2 ∨ i = 3 ∨ i = 4 ∨ i = 5 := by omega
  rcases this with rfl | rfl | rfl | rfl | rfl | rfl <;> rfl

/-- The vectors' H17: one bank with bytes after its payload, against the same image without them. -/
theorem witness_UnusedImageBitsDoNotChangeTheLoad_lengths :
    SameLoadInput oneBankImage (oneBankImage ++ [0xA5, 0x5A]) ∧
      oneBankImage.length ≠ (oneBankImage ++ [0xA5, 0x5A]).length := by
  have hb : ∀ i : Nat, i < 16400 → imageByte oneBankImage i = imageByte (oneBankImage ++ [0xA5, 0x5A]) i := by
    intro i hi
    simp only [imageByte, List.getD_eq_getElem?_getD]
    rw [List.getElem?_append_left (by rw [oneBankImage_length]; omega)]
  have h4 : (imageByte oneBankImage 4).toNat = 1 := rfl
  refine ⟨⟨.inr ?_, fun i hi => hb i (by omega), by rw [hb 6 (by decide)], by rw [hb 7 (by decide)],
    fun i hi => hb _ (by rw [h4] at hi; omega)⟩, by simp⟩
  rw [List.length_append, oneBankImage_length, h4]
  decide

theorem witness_BootCreatesTheSessionOfR31 :
    (∃ r, loadImage deriveMapperId [] = .error r) ∧ ∃ bus, loadImage deriveMapperId (hdr 0 0 0 0) = .ok bus :=
  ⟨⟨_, rfl⟩, ⟨_, rfl⟩⟩

end Sys2Proof.Tests
end

section
/-! The obligations of 10_state.md. Each part first says what the model's operations do: to the state that is never
written, to where a step ends, to two sessions that agree on what is read, to memory, and to the session a load creates.
The obligations of the part follow from these rules. -/

namespace Sys2Proof.Machine

open Sys2Proof.Claims

/-! ## State that is never written (R14, R20, R21, R28) -/

theorem State.SameInert.refl (s : State) : s.SameInert s := ⟨rfl, rfl, rfl, rfl, rfl, rfl, rfl, rfl, rfl, rfl, rfl⟩

theorem State.SameInert.trans {s t u : State} (hst : s.SameInert t) (htu : t.SameInert u) : s.SameInert u where
  x := htu.x.trans hst.x
  y := htu.y.trans hst.y
  sp := htu.sp.trans hst.sp
  flagI := htu.flagI.trans hst.flagI
  flagD := htu.flagD.trans hst.flagD
  flagB := htu.flagB.trans hst.flagB
  flagU := htu.flagU.trans hst.flagU
  flagV := htu.flagV.trans hst.flagV
  mapperId := htu.mapperId.trans hst.mapperId
  prgBytes := htu.prgBytes.trans hst.prgBytes
  chrBytes := htu.chrBytes.trans hst.chrBytes

theorem State.advancePc_sameInert (s : State) (n : Nat) : s.SameInert (s.advancePc n) :=
  ⟨rfl, rfl, rfl, rfl, rfl, rfl, rfl, rfl, rfl, rfl, rfl⟩

theorem raiseAddressRangeError_sameInert (op : Byte) (s : State) (pc : ExtPc) :
    s.SameInert (raiseAddressRangeError op (s.setPc pc)) :=
  ⟨rfl, rfl, rfl, rfl, rfl, rfl, rfl, rfl, rfl, rfl, rfl⟩

theorem terminationCheck_sameInert (s : State) : s.SameInert (terminationCheck s) := by
  constructor <;> simp

theorem step_sameInert {s t : State} (h : step s = .next t) : s.SameInert t := by
  obtain ⟨-, -, ⟨-, rfl⟩ | ⟨-, u, hu, rfl⟩⟩ := step_cases h
  · exact raiseAddressRangeError_sameInert _ s _
  · obtain ⟨-, -, -, hinert⟩ := exec_keeps hu
    exact ((State.advancePc_sameInert s _).trans hinert).trans (terminationCheck_sameInert u)

/-- Settles O34, by induction on the number of steps. -/
theorem inertStateKeepsItsValueForTheWholeRun : Obligations.InertStateKeepsItsValueForTheWholeRun := by
  intro k
  induction k with
  | zero =>
    intro s t h
    obtain rfl : s = t := by simpa using h
    exact .refl s
  | succ k ih =>
    intro s t h
    obtain ⟨u, hstep, hrest⟩ := stepN_succ_cases h
    exact (step_sameInert hstep).trans (ih u t hrest)

/-! ## Where a step ends (R15 to R17, R86, R87) -/

/-- The three ways a step ends, by where its instruction does: short of 0x10000, at it, or past it. -/
theorem step_end_cases {s t : State} (h : step s = .next t) :
    (s.pc.toNat + instrLength s.opcodeAtPc < 0x10000 ∧ t.rs = .running ∧
      t.pc.toNat = s.pc.toNat + instrLength s.opcodeAtPc ∧ t.fa = s.fa) ∨
    (s.pc.toNat + instrLength s.opcodeAtPc = 0x10000 ∧ t.rs = .normalTermination ∧
      t.pc.toNat = s.pc.toNat + instrLength s.opcodeAtPc ∧ t.fa = s.fa) ∨
    (0x10000 < s.pc.toNat + instrLength s.opcodeAtPc ∧ t.rs = .addressRangeError ∧
      t.pc.toNat = 0x10000 ∧ t.fa = some { addr := 0x10000, opcode := s.opcodeAtPc }) := by
  obtain ⟨hrs, -, ⟨hpast, rfl⟩ | ⟨hfit, u, hu, rfl⟩⟩ := step_cases h
  · exact .inr (.inr ⟨hpast, rfl, rfl, rfl⟩)
  · obtain ⟨hpc, hurs, hfa, -⟩ := exec_keeps hu
    have hend : u.pc.toNat = s.pc.toNat + instrLength s.opcodeAtPc := by rw [hpc, State.advancePc_toNat hfit]
    have hrun : u.rs = .running := hurs.trans hrs
    obtain ⟨-, htop, hcheck⟩ | ⟨hgoes, hcheck⟩ := terminationCheck_cases u
    · exact .inr (.inl ⟨by omega, by rw [hcheck]; rfl, by rwa [hcheck], by rwa [hcheck]⟩)
    · have hlow : ¬0xFFFF < u.pc.toNat := fun htop => hgoes ⟨hrun, htop⟩
      exact .inl ⟨by omega, by rwa [hcheck], by rwa [hcheck], by rwa [hcheck]⟩

theorem one_le_instrLength (op : Byte) : 1 ≤ instrLength op := by
  unfold instrLength
  omega

/-- Settles O25: each clause is the rule of one operation, the fetch, the meaning and the step. -/
theorem pcAdvancesOncePerFetchedByte : Obligations.PcAdvancesOncePerFetchedByte := by
  refine ⟨fun s t b h => ?_, fun i s t h => (exec_keeps h).1, fun s t h hrs => ?_⟩
  · by_cases hpc : s.pc.toNat ≤ 0xFFFF
    · rw [fetchByte_inside hpc] at h
      obtain ⟨-, rfl⟩ : _ ∧ s.advancePc 1 = t := by simpa using h
      exact State.advancePc_toNat (by omega)
    · rw [fetchByte_past (by omega)] at h
      cases h
  · obtain ⟨-, -, hpc, -⟩ | ⟨-, -, hpc, -⟩ | ⟨-, herr, -⟩ := step_end_cases h
    · exact hpc
    · exact hpc
    · exact absurd herr hrs

/-- Settles O26: the three ends of a step exclude each other. -/
theorem lastByteDecidesTheRunStatus : Obligations.LastByteDecidesTheRunStatus := by
  intro s t h
  have hlen := one_le_instrLength s.opcodeAtPc
  obtain ⟨-, hin, -⟩ := step_cases h
  obtain ⟨hend, hrs, hpc, -⟩ | ⟨hend, hrs, hpc, -⟩ | ⟨hend, hrs, hpc, -⟩ := step_end_cases h <;>
    simp only [hrs, reduceCtorEq, true_iff, false_iff] <;> omega

/-- A step keeps memory canonical. -/
theorem step_wf {s t : State} (h : step s = .next t) (hm : s.mem.wf = true) : t.mem.wf = true := by
  obtain ⟨-, -, ⟨-, rfl⟩ | ⟨-, u, hu, rfl⟩⟩ := step_cases h
  · exact hm
  · rw [terminationCheck_mem]
    exact exec_wf hu hm

theorem State.BusLegal.of_sameInert {s t : State} (hb : s.BusLegal) (h : s.SameInert t) : t.BusLegal where
  mapper := h.mapperId.trans hb.mapper
  prg := h.prgBytes ▸ hb.prg
  chr := h.chrBytes ▸ hb.chr

/-- Settles O32: `pc`, status and fault record by the way the step ends, memory and bus by what it keeps. -/
theorem stepKeepsSessionLegal : Obligations.StepKeepsSessionLegal := by
  intro s t hs h
  obtain ⟨hrs, hin, -⟩ := step_cases h
  have hnone : s.fa = none := hs.noFault (by simp [hrs])
  have hmem := step_wf h hs.memory
  have hbus := hs.bus.of_sameInert (step_sameInert h)
  obtain ⟨hend, hrs', hpc, hfa⟩ | ⟨hend, hrs', hpc, hfa⟩ | ⟨hend, hrs', hpc, hfa⟩ := step_end_cases h
  · exact {
      runningPc := fun _ => by omega
      endedPc := fun hne => absurd hrs' hne
      noFault := fun _ => hfa.trans hnone
      fault := by simp [hrs']
      memory := hmem
      bus := hbus }
  · exact {
      runningPc := by simp [hrs']
      endedPc := fun _ => hpc.trans hend
      noFault := fun _ => hfa.trans hnone
      fault := by simp [hrs']
      memory := hmem
      bus := hbus }
  · have hop : operandCount s.opcodeAtPc ≠ 0 := by
      unfold instrLength at hend
      omega
    exact {
      runningPc := by simp [hrs']
      endedPc := fun _ => hpc
      noFault := fun hne => absurd hrs' hne
      fault := fun _ => ⟨_, hop, hfa⟩
      memory := hmem
      bus := hbus }

/-- Settles O28: entering the run sets the status, and a step starts with the check of it. -/
theorem endedRunHasNoFurtherStep : Obligations.EndedRunHasNoFurtherStep := by
  refine fun s => ⟨rfl, fun hrs => ?_, fun hrs => ?_, fun t h => (step_cases h).1⟩
  · simp [step, endedFault, hrs]
  · simp [step, endedFault, hrs]

/-! ## State that is never read (R14, R20, R21, R27, R28) -/

/-- What `s1` and `s2` become, `t1` and `t2`, agrees on all that is read, and on each other field that `s1` and `s2`
agree on. -/
structure StaysAlike (s1 s2 t1 t2 : State) : Prop where
  read : t1.SameRead t2
  rest : KeepsEveryAgreement s1 s2 t1 t2

/-- Whatever the two sessions get for the fields that are read, their other fields agree as before. -/
theorem keepsEveryAgreement_of_read_update (s1 s2 : State) {a1 a2 x1 x2 : Byte} {pc1 pc2 : ExtPc} {rs1 rs2 : RunStatus}
    {mem1 mem2 : Memory} :
    KeepsEveryAgreement s1 s2 { s1 with a := a1, x := x1, pc := pc1, rs := rs1, mem := mem1 }
      { s2 with a := a2, x := x2, pc := pc2, rs := rs2, mem := mem2 } :=
  ⟨id, id, id, id, id, id, id, id, id, id, id, id, id, id⟩

theorem StaysAlike.refl {s1 s2 : State} (h : s1.SameRead s2) : StaysAlike s1 s2 s1 s2 :=
  ⟨h, keepsEveryAgreement_of_read_update s1 s2⟩

theorem StaysAlike.trans {s1 s2 t1 t2 u1 u2 : State} (hst : StaysAlike s1 s2 t1 t2) (htu : StaysAlike t1 t2 u1 u2) :
    StaysAlike s1 s2 u1 u2 where
  read := htu.read
  rest :=
    { y := htu.rest.y ∘ hst.rest.y
      sp := htu.rest.sp ∘ hst.rest.sp
      flagC := htu.rest.flagC ∘ hst.rest.flagC
      flagZ := htu.rest.flagZ ∘ hst.rest.flagZ
      flagI := htu.rest.flagI ∘ hst.rest.flagI
      flagD := htu.rest.flagD ∘ hst.rest.flagD
      flagB := htu.rest.flagB ∘ hst.rest.flagB
      flagU := htu.rest.flagU ∘ hst.rest.flagU
      flagV := htu.rest.flagV ∘ hst.rest.flagV
      flagN := htu.rest.flagN ∘ hst.rest.flagN
      fa := htu.rest.fa ∘ hst.rest.fa
      mapperId := htu.rest.mapperId ∘ hst.rest.mapperId
      prgBytes := htu.rest.prgBytes ∘ hst.rest.prgBytes
      chrBytes := htu.rest.chrBytes ∘ hst.rest.chrBytes }

section
variable {s1 s2 : State} (h : s1.SameRead s2)
include h

theorem State.SameRead.readByte (addr : Nat) : s2.readByte addr = s1.readByte addr := State.readByte_congr h.mem addr

theorem State.SameRead.opcodeAtPc : s2.opcodeAtPc = s1.opcodeAtPc := by
  simp only [State.opcodeAtPc, h.readByte, h.pc]

theorem State.SameRead.instrAtPc : s2.instrAtPc = s1.instrAtPc := by
  simp only [State.instrAtPc, h.opcodeAtPc, h.readByte, h.pc]

theorem setPc_staysAlike (pc : ExtPc) : StaysAlike s1 s2 (s1.setPc pc) (s2.setPc pc) :=
  ⟨⟨h.a, h.x, rfl, h.rs, h.mem⟩, keepsEveryAgreement_of_read_update s1 s2⟩

theorem advancePc_staysAlike (n : Nat) : StaysAlike s1 s2 (s1.advancePc n) (s2.advancePc n) := by
  rw [State.advancePc, State.advancePc, h.pc]
  exact setPc_staysAlike h _

theorem setA_staysAlike (v : Byte) : StaysAlike s1 s2 (s1.setA v) (s2.setA v) :=
  ⟨⟨rfl, h.x, h.pc, h.rs, h.mem⟩, keepsEveryAgreement_of_read_update s1 s2⟩

theorem setRs_staysAlike (rs : RunStatus) : StaysAlike s1 s2 (s1.setRs rs) (s2.setRs rs) :=
  ⟨⟨h.a, h.x, h.pc, rfl, h.mem⟩, keepsEveryAgreement_of_read_update s1 s2⟩

theorem writeByte_staysAlike (addr : Nat) (v : Byte) : StaysAlike s1 s2 (s1.writeByte addr v) (s2.writeByte addr v) :=
  ⟨⟨h.a, h.x, h.pc, h.rs, by simp [h.mem]⟩, keepsEveryAgreement_of_read_update s1 s2⟩

/-- LDA's flags follow from the byte alone, where they do not stay. -/
theorem afterLoad_staysAlike (v : Byte) :
    StaysAlike s1 s2 (s1.setF (s1.f.afterLoad v)) (s2.setF (s2.f.afterLoad v)) :=
  ⟨⟨h.a, h.x, h.pc, h.rs, h.mem⟩,
    ⟨id, id, id, fun _ => rfl, id, id, id, id, id, fun _ => rfl, id, id, id, id⟩⟩

/-- LSR's flags follow from the operand alone, where they do not stay. -/
theorem afterLsr_staysAlike (v : Byte) :
    StaysAlike s1 s2 (s1.setF (s1.f.afterLsr v)) (s2.setF (s2.f.afterLsr v)) :=
  ⟨⟨h.a, h.x, h.pc, h.rs, h.mem⟩,
    ⟨id, id, fun _ => rfl, fun _ => rfl, id, id, id, id, id, fun _ => rfl, id, id, id, id⟩⟩

theorem lsrMemory_staysAlike (ea : Addr) : StaysAlike s1 s2 (lsrMemory ea s1) (lsrMemory ea s2) := by
  have hflags := afterLsr_staysAlike h (s1.readByte ea.toNat)
  have hwrite := writeByte_staysAlike hflags.read ea.toNat (lsrResult (s1.readByte ea.toNat))
  simp only [lsrMemory, lsrCore, h.readByte]
  exact hflags.trans hwrite

theorem raiseAddressRangeError_staysAlike (op : Byte) :
    StaysAlike s1 s2 (raiseAddressRangeError op s1) (raiseAddressRangeError op s2) :=
  ⟨⟨h.a, h.x, h.pc, rfl, h.mem⟩,
    ⟨id, id, id, id, id, id, id, id, id, id, fun _ => by simp [h.pc], id, id, id⟩⟩

theorem terminationCheck_staysAlike : StaysAlike s1 s2 (terminationCheck s1) (terminationCheck s2) := by
  unfold terminationCheck
  rw [h.rs, h.pc]
  split
  · exact setRs_staysAlike h _
  · exact .refl h

/-- A meaning reads A, X and memory only. -/
theorem exec_staysAlike {i : Instr} {u1 : State} (h1 : exec i s1 = .next u1) :
    ∃ u2, exec i s2 = .next u2 ∧ StaysAlike s1 s2 u1 u2 := by
  cases i with
  | ldaImm imm8 =>
    obtain rfl : _ = u1 := by simpa [exec_ldaImm] using h1
    have ha := setA_staysAlike h imm8
    exact ⟨_, exec_ldaImm s2 imm8, ha.trans (afterLoad_staysAlike ha.read imm8)⟩
  | lsrAcc =>
    obtain rfl : _ = u1 := by simpa [exec_lsrAcc] using h1
    have hflags := afterLsr_staysAlike h s1.a
    refine ⟨_, exec_lsrAcc s2, ?_⟩
    rw [h.a]
    exact hflags.trans (setA_staysAlike hflags.read _)
  | lsrZp _ | lsrAbs _ =>
    injection h1 with h1
    subst h1
    exact ⟨_, rfl, lsrMemory_staysAlike h _⟩
  | lsrZpX _ | lsrAbsX _ =>
    injection h1 with h1
    subst h1
    exact ⟨_, rfl, h.x ▸ lsrMemory_staysAlike h _⟩
  | nopUnassigned op =>
    obtain rfl : s1 = u1 := by simpa [exec_nopUnassigned] using h1
    exact ⟨s2, exec_nopUnassigned s2 op, .refl h⟩

/-- Alike sessions take the same case of a step: the operands raise in both or in neither. -/
theorem step_staysAlike {t1 : State} (h1 : step s1 = .next t1) :
    ∃ t2, step s2 = .next t2 ∧ StaysAlike s1 s2 t1 t2 := by
  obtain ⟨hrs, hin, ⟨hpast, rfl⟩ | ⟨hfit, u1, hu1, rfl⟩⟩ := step_cases h1
  · have hpc := setPc_staysAlike h 0x10000
    refine ⟨_, step_past (h.rs.trans hrs) (by rwa [h.pc]) (by rwa [h.pc, h.opcodeAtPc]), ?_⟩
    rw [h.opcodeAtPc]
    exact hpc.trans (raiseAddressRangeError_staysAlike hpc.read _)
  · have hpc := advancePc_staysAlike h (instrLength s1.opcodeAtPc)
    obtain ⟨u2, hu2, hu⟩ := exec_staysAlike hpc.read hu1
    refine ⟨_, step_whole (h.rs.trans hrs) (by rwa [h.pc, h.opcodeAtPc]) (by rwa [h.instrAtPc, h.opcodeAtPc]), ?_⟩
    exact (hpc.trans hu).trans (terminationCheck_staysAlike hu.read)

end

/-- Any number of steps of alike sessions: the step rule, by induction on the number of steps. -/
theorem stepN_staysAlike {k : Nat} {s1 s2 t1 : State} (h : s1.SameRead s2) (h1 : stepN k s1 = .next t1) :
    ∃ t2, stepN k s2 = .next t2 ∧ StaysAlike s1 s2 t1 t2 := by
  induction k generalizing s1 s2 with
  | zero =>
    obtain rfl : s1 = t1 := by simpa using h1
    exact ⟨s2, rfl, .refl h⟩
  | succ k ih =>
    obtain ⟨u1, hstep1, hrest1⟩ := stepN_succ_cases h1
    obtain ⟨u2, hstep2, hu⟩ := step_staysAlike h hstep1
    obtain ⟨t2, hrest2, ht⟩ := ih hu.read hrest1
    exact ⟨t2, (stepN_of_step hstep2).trans hrest2, hu.trans ht⟩

/-- Settles O35, from the rule for any number of steps. -/
theorem flagsAndInertStateAreNeverRead : Obligations.FlagsAndInertStateAreNeverRead := by
  intro k s1 s2 t1 h h1
  obtain ⟨t2, h2, hread, hrest⟩ := stepN_staysAlike h h1
  exact ⟨t2, h2, hread, hrest⟩

/-! ## Who writes A and the flags (R14, R20) -/

theorem State.instrAtPc_opcode (s : State) : s.instrAtPc.opcode = s.opcodeAtPc :=
  (instrOfBytes_wf _ _ _).2

/-- The meanings that write A, C, and Z or N, named by their opcodes. -/
theorem exec_writers {i : Instr} {s t : State} (h : exec i s = .next t) :
    (t.a ≠ s.a → i.opcode ∈ [(0xA9 : Byte), 0x4A]) ∧
    (t.f.c ≠ s.f.c → i.opcode ∈ [(0x4A : Byte), 0x46, 0x56, 0x4E, 0x5E]) ∧
    ((t.f.z ≠ s.f.z ∨ t.f.n ≠ s.f.n) → i.opcode ∈ assignedOpcodes) := by
  cases i with
  | ldaImm imm8 =>
    obtain rfl : _ = t := by simpa [exec_ldaImm] using h
    simp [Instr.opcode, assignedOpcodes]
  | lsrAcc =>
    simp [Instr.opcode, assignedOpcodes]
  | lsrZp _ | lsrZpX _ | lsrAbs _ | lsrAbsX _ =>
    injection h with h
    subst h
    simp [Instr.opcode, assignedOpcodes]
  | nopUnassigned op =>
    obtain rfl : s = t := by simpa [exec_nopUnassigned] using h
    simp

/-- Settles O36: the fetches, the raise and the termination check write neither A nor a flag. -/
theorem onlyNamedInstructionsWriteAAndFlags : Obligations.OnlyNamedInstructionsWriteAAndFlags := by
  intro s t h
  obtain ⟨-, -, ⟨-, rfl⟩ | ⟨-, u, hu, rfl⟩⟩ := step_cases h
  · simp
  · simpa [State.instrAtPc_opcode] using exec_writers hu

/-! ## Memory is the array of R28 -/

/-- Settles O13, from the laws of one write and of consecutive writes. -/
theorem memoryOperationsKeepCanonicalForm : Obligations.MemoryOperationsKeepCanonicalForm :=
  ⟨fun _ addr v h => State.writeByte_wf h addr v, fun _ _ _ h ha => Memory.wf_writeBytes h ha⟩

/-- Settles O14: past the end of the space both lists read as unlisted. -/
theorem canonicalMemoryIsFixedByItsBytes : Obligations.CanonicalMemoryIsFixedByItsBytes := by
  intro m n hm hn h
  refine Memory.ext_from hm hn fun a => ?_
  by_cases ha : a < 65536
  · exact h a ha
  · rw [Memory.read_outside hm (by omega), Memory.read_outside hn (by omega)]

/-! ## Session creation (R31) -/

/-- The session of a bus with canonical memory and metadata in the ranges of R53, R59 and R61 is legal, whatever the
registers hold. -/
theorem createSession_legal (init : Config.InitRegs) {bus : Bus} (hmem : bus.mem.wf = true)
    (hbus : (createSession init bus).BusLegal) : (createSession init bus).Legal where
  runningPc _ := by simp [createSession, Config.prgBase]
  endedPc h := absurd rfl h
  noFault _ := rfl
  fault h := by cases h
  memory := hmem
  bus := hbus

/-- PRG-ROM that fits above PRG_BASE is no bank, one bank or two. -/
theorem deriveRomSizes_prg_cases {h : Header} (hcap : (deriveRomSizes h).1 ≤ 32768) :
    (deriveRomSizes h).1 = 0 ∨ (deriveRomSizes h).1 = 16384 ∨ (deriveRomSizes h).1 = 32768 := by
  simp only [deriveRomSizes, prgUnitBytes] at *
  omega

/-- Settles O33: the checks of a load that succeeds are what makes its session legal. -/
theorem bootedSessionIsLegal : Obligations.BootedSessionIsLegal := by
  intro fn init img s h
  obtain ⟨bus, hload, rfl⟩ := boot_ok.mp h
  obtain ⟨hd, -, -, hmapper, hcap, hlen, rfl⟩ := loadImage_ok.mp hload
  exact createSession_legal init (projectPrg_wf rfl hcap hlen)
    ⟨hmapper, deriveRomSizes_prg_cases hcap, hd.chrUnits.toNat, hd.chrUnits.isLt, rfl⟩

/-- Settles O50, from what `boot` does with each answer of the load. -/
theorem bootCreatesTheSessionOfR31 : Obligations.BootCreatesTheSessionOfR31 := by
  refine fun fn init img => ⟨fun r h => ?_, fun bus h => ⟨_, boot_ok.mpr ⟨bus, h, rfl⟩, ?_⟩⟩
  · simp [boot, h]
  · simp [createSession, Config.prgBase]

/-- Settles O51: the load is a closed computation. -/
theorem resetIsTheEmptyCartridgeSession : Obligations.ResetIsTheEmptyCartridgeSession := rfl

/-- Settles O31: the values are the definition's, and the reset state is legal as a session that a load creates. -/
theorem resetStateValues : Obligations.ResetStateValues :=
  ⟨rfl, rfl, rfl, fun _ => rfl, rfl, rfl, rfl, rfl, rfl,
    bootedSessionIsLegal _ _ _ _ resetIsTheEmptyCartridgeSession⟩

end Sys2Proof.Machine
end

section
/-! The obligations of 20_memory.md. Each part first says what the model's operations do: one write and one read, who
writes memory in a step, the header's fields, the projection on the constructed space, and what of an image the load
step reads. The obligations of the part follow from these rules. -/

namespace Sys2Proof.Machine

open Sys2Proof.Claims

/-! ## One read and one write (R34, R36, R37, R41, R43, R62, R63) -/

theorem State.readByte_mod (s : State) (addr : Nat) : s.readByte (addr % 65536) = s.readByte addr := by
  simp only [State.readByte, Nat.mod_mod]

theorem State.readByte_inside (s : State) {addr : Nat} (h : addr < 65536) : s.readByte addr = s.mem.read addr := by
  simp only [State.readByte, Nat.mod_eq_of_lt h]

/-- Settles O10, from the masking and from its absence inside the space. -/
theorem readByteMasksTheAddress : Obligations.ReadByteMasksTheAddress :=
  fun s addr => ⟨(s.readByte_mod addr).symm, s.readByte_inside⟩

theorem State.readByte_writeByte_same {s : State} (h : s.mem.wf = true) (addr : Nat) (v : Byte) :
    (s.writeByte addr v).readByte addr = v := by
  rw [State.readByte_writeByte h, if_pos rfl]

theorem State.readByte_writeByte_other {s : State} (h : s.mem.wf = true) {addr k : Nat} (v : Byte)
    (hk : k % 65536 ≠ addr % 65536) : (s.writeByte addr v).readByte k = s.readByte k := by
  rw [State.readByte_writeByte h, if_neg hk]

/-- Settles O11: read after write at the same address. -/
theorem everyAddressIsReadableAndWritable : Obligations.EveryAddressIsReadableAndWritable :=
  fun _ addr v h => State.readByte_writeByte_same h addr v

/-- Of two writes to one address the second alone remains, as data: both lists are canonical and read alike. -/
theorem Memory.write_write {m : Memory} (h : m.wf = true) {a : Nat} (ha : a < 65536) (v w : Byte) :
    (m.write a v).write a w = m.write a w := by
  have hv := Memory.wf_write h v ha
  refine Memory.ext_from (Memory.wf_write hv w ha) (Memory.wf_write h w ha) fun k => ?_
  rw [Memory.read_write hv, Memory.read_write h, Memory.read_write h]
  split <;> rfl

theorem State.writeByte_writeByte {s : State} (h : s.mem.wf = true) (addr : Nat) (v w : Byte) :
    (s.writeByte addr v).writeByte addr w = s.writeByte addr w :=
  congrArg s.setMem (Memory.write_write h (Nat.mod_lt _ (by decide)) v w)

/-- Settles O12: the other bytes by read after write, the rest of the state by the definition of a write. -/
theorem writeChangesOneByteAndIsIdempotent : Obligations.WriteChangesOneByteAndIsIdempotent :=
  fun _ addr v h => ⟨fun _ hk => State.readByte_writeByte_other h v hk, rfl, State.writeByte_writeByte h addr v v⟩

/-- Settles O15: a write leaves `pc`, and the fetch reads the byte there. -/
theorem writtenByteIsTheNextFetch : Obligations.WrittenByteIsTheNextFetch := by
  intro s v h hpc
  have hfetch := fetchByte_inside (s := s.writeByte s.pc.toNat v) hpc
  rwa [State.writeByte_pc, State.readByte_writeByte_same h] at hfetch

/-- Settles O16: no address of one bank is an address of the other. -/
theorem mirrorIsACopyNotAnAlias : Obligations.MirrorIsACopyNotAnAlias :=
  fun _ _ _ v h _ _ =>
    ⟨State.readByte_writeByte_other h v (by omega), State.readByte_writeByte_other h v (by omega)⟩

/-! ## Who writes memory (R41, R98 to R101) -/

/-- The byte that LSR of a memory byte can change is the one at its effective address. -/
theorem lsrMemory_changes {s : State} (h : s.mem.wf = true) {ea : Addr} {k : Nat}
    (hk : (lsrMemory ea s).readByte k ≠ s.readByte k) : k % 65536 = ea.toNat := by
  by_contra hne
  exact hk (by rw [lsrMemory_readByte h, if_neg hne])

/-- The meanings that change a byte of memory, and which byte. -/
theorem exec_memory_writers {i : Instr} {s t : State} {k : Nat} (hm : s.mem.wf = true) (h : exec i s = .next t)
    (hk : t.readByte k ≠ s.readByte k) :
    (∃ zp, i = .lsrZp zp ∧ k % 65536 = (eaZp zp).toNat) ∨
    (∃ zp, i = .lsrZpX zp ∧ k % 65536 = (eaZpX zp s.x).toNat) ∨
    (∃ addr, i = .lsrAbs addr ∧ k % 65536 = (eaAbs addr).toNat) ∨
    (∃ base, i = .lsrAbsX base ∧ k % 65536 = (eaAbsX base s.x).toNat) := by
  cases i with
  | ldaImm _ | lsrAcc | nopUnassigned _ =>
    injection h with h
    subst h
    exact absurd rfl hk
  | lsrZp zp =>
    injection h with h
    subst h
    exact .inl ⟨zp, rfl, lsrMemory_changes hm hk⟩
  | lsrZpX zp =>
    injection h with h
    subst h
    exact .inr (.inl ⟨zp, rfl, lsrMemory_changes hm hk⟩)
  | lsrAbs addr =>
    injection h with h
    subst h
    exact .inr (.inr (.inl ⟨addr, rfl, lsrMemory_changes hm hk⟩))
  | lsrAbsX base =>
    injection h with h
    subst h
    exact .inr (.inr (.inr ⟨base, rfl, lsrMemory_changes hm hk⟩))

/-- Settles O37: the raise and the termination check leave memory, so the meaning of the instruction wrote it. -/
theorem onlyLsrMemoryFormsWriteMemory : Obligations.OnlyLsrMemoryFormsWriteMemory := by
  intro s t k hm h hk
  obtain ⟨-, -, ⟨-, rfl⟩ | ⟨-, u, hu, rfl⟩⟩ := step_cases h
  · exact absurd (State.readByte_congr rfl k) hk
  · rw [State.readByte_congr (terminationCheck_mem u)] at hk
    exact exec_memory_writers (s := s.advancePc _) hm hu hk

/-! ## The header (R46 to R53) -/

/-- The first bytes of an image, one by one. -/
theorem take_eq_map_imageByte {img : List Byte} {n : Nat} (h : n ≤ img.length) :
    img.take n = (List.range n).map (imageByte img) := by
  refine List.ext_getElem (by simpa using h) fun i hi _ => ?_
  rw [List.length_take] at hi
  simp [imageByte, List.getD_eq_getElem?_getD, List.getElem?_eq_getElem (show i < img.length by omega)]

theorem parseHeader_short {img : List Byte} (h : img.length < 16) :
    parseHeader img = .error (.formatError .truncated) := if_pos h

theorem parseHeader_long {img : List Byte} (h : 16 ≤ img.length) : ∃ hd, parseHeader img = .ok hd :=
  ⟨_, if_neg (Nat.not_lt.mpr h)⟩

/-- Settles O41: the fields in the order of their offsets are the image's bytes 0 to 15. -/
theorem headerIsTheFirstSixteenBytes : Obligations.HeaderIsTheFirstSixteenBytes := by
  refine fun img => ⟨parseHeader_short, fun h => ⟨_, if_neg (Nat.not_lt.mpr h), ?_⟩⟩
  rw [take_eq_map_imageByte h]
  rfl

/-- A signature of four bytes, byte by byte. -/
theorem Header.sig_toList (h : Header) : h.sig.toList = [h.sig[0], h.sig[1], h.sig[2], h.sig[3]] := by
  refine List.ext_getElem (by simp) fun i _ hi => ?_
  match i, hi with
  | 0, _ | 1, _ | 2, _ | 3, _ => rfl

theorem Header.token_iff (h : Header) :
    h.sig.toList.take 3 = [0x4E, 0x45, 0x53] ↔ h.sig[0] = 0x4E ∧ h.sig[1] = 0x45 ∧ h.sig[2] = 0x53 := by
  simp [Header.sig_toList]

/-- Settles O42: the two checks in the order of the definition. -/
theorem signatureIsCheckedBeforeTheSentinel : Obligations.SignatureIsCheckedBeforeTheSentinel := by
  intro h
  rw [Ne, h.token_iff]
  refine ⟨fun htoken => if_pos htoken, fun htoken hend => ?_, fun htoken hend => ?_⟩
  · rw [validate, if_neg (not_not.mpr htoken), if_pos hend]
  · rw [validate, if_neg (not_not.mpr htoken), if_neg (not_not.mpr hend)]

/-- Settles O43: a unit count is a byte. -/
theorem romSizesAreUnitCountsTimesBankSizes : Obligations.RomSizesAreUnitCountsTimesBankSizes := by
  intro h
  have hprg := h.prgUnits.isLt
  have hchr := h.chrUnits.isLt
  refine ⟨rfl, ?_⟩
  simp only [deriveRomSizes, prgUnitBytes, chrUnitBytes]
  omega

/-- The mask 0xF0 keeps the high nibble where it is. -/
theorem and_F0_toNat (b : Byte) : (b &&& 0xF0).toNat = (b.toNat / 16) <<< 4 := by
  have hmask : (0xF0 : Byte) = BitVec.allOnes 8 <<< 4 := by decide
  have hb := b.isLt
  rw [hmask, ← BitVec.shiftLeft_ushiftRight, BitVec.toNat_shiftLeft, BitVec.toNat_ushiftRight,
    Nat.shiftRight_eq_div_pow, Nat.shiftLeft_eq]
  omega

theorem deriveMapperId_toNat (h : Header) :
    (deriveMapperId h).toNat = h.flags6.toNat / 16 + 16 * (h.flags7.toNat / 16) := by
  have hlow : h.flags6.toNat / 16 < 2 ^ 4 := by have := h.flags6.isLt; omega
  calc (deriveMapperId h).toNat
      = (h.flags6.toNat / 16) ||| (h.flags7.toNat / 16) <<< 4 := by
        rw [deriveMapperId, BitVec.toNat_or, and_F0_toNat, BitVec.toNat_ushiftRight, Nat.shiftRight_eq_div_pow]
    _ = (h.flags7.toNat / 16) <<< 4 + h.flags6.toNat / 16 := by
        rw [Nat.lor_comm, Nat.shiftLeft_add_eq_or_of_lt hlow]
    _ = h.flags6.toNat / 16 + 16 * (h.flags7.toNat / 16) := by
        rw [Nat.shiftLeft_eq]
        omega

/-- Settles O44: the nibbles do not overlap, so joining them is adding them. -/
theorem defaultMapperIdJoinsTheHighNibbles : Obligations.DefaultMapperIdJoinsTheHighNibbles := by
  intro h
  refine ⟨deriveMapperId_toNat h, ?_⟩
  rw [← BitVec.toNat_inj, deriveMapperId_toNat, show (0 : Byte).toNat = 0 from rfl]
  omega

/-! ## The projection (R35, R57, R58) -/

/-- What each address holds after the projection into the constructed space. -/
theorem projectPrg_construct_read {p : Nat} {img : List Byte} (hp : p ≤ 32768) (hl : headerBytes + p ≤ img.length)
    (k : Nat) :
    (projectPrg p img construct).read k =
      if 0x8000 ≤ k ∧ k < 0x8000 + p then imageByte img (16 + (k - 0x8000))
      else if p = 16384 ∧ 0xC000 ≤ k ∧ k < 0x10000 then imageByte img (16 + (k - 0xC000))
      else 0 := projectPrg_read rfl hp hl k

/-- Settles O46: the checks of the load pass, and the projection is read inside the payload. -/
theorem prgRomIsProjectedAtPrgBase : Obligations.PrgRomIsProjectedAtPrgBase := by
  intro img p hp hl
  refine ⟨_, loadProgram_ok.mpr ⟨rfl, hp, hl, rfl⟩, fun i hi => ?_⟩
  rw [projectPrg_construct_read hp hl, if_pos (by omega), Nat.add_sub_cancel_left]

/-- Settles O47: the projection is read in either bank for one bank, and everywhere for any other size. -/
theorem oneBankIsMirroredAndNoOtherSizeIs : Obligations.OneBankIsMirroredAndNoOtherSizeIs := by
  intro img p m h
  obtain ⟨-, hp, hl, rfl⟩ := loadProgram_ok.mp h
  have hread := projectPrg_construct_read hp hl
  refine ⟨fun hone i hi => ?_, fun hother k => ?_⟩
  · have hfirst : (projectPrg p img construct).read (0x8000 + i) = imageByte img (16 + i) := by
      rw [hread, if_pos (by omega), Nat.add_sub_cancel_left]
    have hsecond : (projectPrg p img construct).read (0xC000 + i) = imageByte img (16 + i) := by
      rw [hread, if_neg (by omega), if_pos (by omega), Nat.add_sub_cancel_left]
    exact ⟨hsecond, hfirst.trans hsecond.symm⟩
  · rw [hread, if_neg (c := p = 16384 ∧ _) fun h => hother h.1]

/-- Settles O48: outside both ranges of the projection the constructed zero remains. -/
theorem unprojectedBytesAreZeroAtTheFirstStep : Obligations.UnprojectedBytesAreZeroAtTheFirstStep := by
  refine ⟨Memory.read_nil, fun fn init img s k h hk hpayload hmirror => ?_⟩
  obtain ⟨bus, hload, rfl⟩ := boot_ok.mp h
  obtain ⟨hd, -, -, -, hp, hl, rfl⟩ := loadImage_ok.mp hload
  simp only [createSession] at hpayload hmirror ⊢
  rw [State.readByte_inside _ hk, projectPrg_construct_read hp hl, if_neg hpayload,
    if_neg fun ⟨hone, hlow, _⟩ => hmirror ⟨hone, hlow⟩]

/-! ## What of an image the load step reads (R45, R54, R60, R64) -/

theorem validate_congr {h h' : Header} (hsig : h.sig = h'.sig) : validate h = validate h' := by
  simp only [validate, hsig]

/-- The projection reads the payload alone. -/
theorem projectPrg_congr {img img' : List Byte} {p : Nat} {m : Memory} (h : prgPayload img p = prgPayload img' p) :
    projectPrg p img m = projectPrg p img' m := by
  unfold projectPrg
  by_cases hone : p = prgUnitBytes
  · subst hone
    rw [h]
  · rw [h, if_neg hone, if_neg hone]

/-- An image that ends before its payload does counts by its length alone (R60), any other by its payload. -/
theorem loadProgram_congr {img img' : List Byte} {p : Nat}
    (hlen : img.length = img'.length ∨ (headerBytes + p ≤ img.length ∧ headerBytes + p ≤ img'.length))
    (hpayload : ∀ i, i < p → imageByte img (16 + i) = imageByte img' (16 + i)) (id : Byte) (m : Memory) :
    loadProgram id p img m = loadProgram id p img' m := by
  unfold loadProgram
  by_cases hshort : img.length < headerBytes + p
  · have heq : img.length = img'.length := by omega
    have hshort' : img'.length < headerBytes + p := by omega
    rw [if_pos hshort, if_pos hshort', heq]
  · have hshort' : ¬img'.length < headerBytes + p := by omega
    have hsame := prgPayload_congr (Nat.not_lt.mp hshort) (Nat.not_lt.mp hshort') hpayload
    rw [if_neg hshort, if_neg hshort', projectPrg_congr hsame]

/-- The headers of two such images give the load step the same values. -/
theorem parseHeader_sameLoadInput {img img' : List Byte} {hd hd' : Header} (h : SameLoadInput img img')
    (hp : parseHeader img = .ok hd) (hp' : parseHeader img' = .ok hd') :
    hd.sig = hd'.sig ∧ deriveMapperId hd = deriveMapperId hd' ∧ deriveRomSizes hd = deriveRomSizes hd' := by
  obtain ⟨-, hbytes, h6, h7, -⟩ := h
  obtain ⟨-, hprg, hchr, hf6, hf7, hsig⟩ := parseHeader_ok hp
  obtain ⟨-, hprg', hchr', hf6', hf7', hsig'⟩ := parseHeader_ok hp'
  refine ⟨?_, ?_, ?_⟩
  · rw [hsig, hsig', hbytes 0 (by decide), hbytes 1 (by decide), hbytes 2 (by decide), hbytes 3 (by decide)]
  · rw [← BitVec.toNat_inj, deriveMapperId_toNat, deriveMapperId_toNat, hf6, hf6', hf7, hf7', h6, h7]
  · rw [deriveRomSizes, deriveRomSizes, hprg, hprg', hchr, hchr', hbytes 4 (by decide), hbytes 5 (by decide)]

/-- Either both images are too short for a header, or each check of the load step gives the same on both. -/
theorem loadImage_sameLoadInput {img img' : List Byte} (h : SameLoadInput img img') :
    loadImage deriveMapperId img = loadImage deriveMapperId img' := by
  have ⟨hlen, _, _, _, hpayload⟩ := h
  by_cases hshort : img.length < 16
  · have hshort' : img'.length < 16 := by omega
    simp only [loadImage, parseHeader_short hshort, parseHeader_short hshort']
  · obtain ⟨hd, hp⟩ := parseHeader_long (img := img) (by omega)
    obtain ⟨hd', hp'⟩ := parseHeader_long (img := img') (by omega)
    obtain ⟨hsig, hid, hsizes⟩ := parseHeader_sameLoadInput h hp hp'
    have hprg : (deriveRomSizes hd').1 = (imageByte img 4).toNat * 16384 := by
      obtain ⟨-, hunits, -⟩ := parseHeader_ok hp
      rw [← hsizes, deriveRomSizes, hunits, prgUnitBytes]
    have hprogram : ∀ id m,
        loadProgram id (deriveRomSizes hd').1 img m = loadProgram id (deriveRomSizes hd').1 img' m :=
      loadProgram_congr (by rwa [hprg]) (by rwa [hprg])
    simp only [loadImage, hp, hp', validate_congr hsig, hid, hsizes, hprogram]

/-- Settles O49: a session is made of the loaded bus and `InitRegs`. -/
theorem unusedImageBitsDoNotChangeTheLoad : Obligations.UnusedImageBitsDoNotChangeTheLoad := by
  intro init img img' h
  rw [boot, boot, loadImage_sameLoadInput h]

end Sys2Proof.Machine
end

section
/-! The obligations of 30_encoding.md. Each part first says what the model's operations do: how the operand bytes of a
format are picked from a byte list, what decoding answers, the length by opcode, and the effective addresses as numbers.
The obligations of the part follow from these rules. -/

namespace Sys2Proof

/-! ## Picking the operand bytes (R67, R68) -/

theorem operandByte_append_left {bs : List Byte} {k : Nat} (h : k < bs.length) (rest : List Byte) :
    operandByte (bs ++ rest) k = operandByte bs k :=
  List.getD_append bs rest 0 k h

/-- Assembling does not look past the opcode's own operand bytes. -/
theorem instrOfBytes_append {op : Byte} {bs : List Byte} (h : bs.length = operandCount op) (rest : List Byte) :
    instrOfBytes op (operandByte (bs ++ rest) 0) (operandByte (bs ++ rest) 1) =
      instrOfBytes op (operandByte bs 0) (operandByte bs 1) :=
  instrOfBytes_congr (fun h1 => operandByte_append_left (by omega) rest)
    (fun h2 => operandByte_append_left (by omega) rest)

theorem take_operandBytes {n : Nat} {bs : List Byte} (hn : n ≤ 2) (hlen : n ≤ bs.length) :
    [operandByte bs 0, operandByte bs 1].take n = bs.take n := by
  match bs, n with
  | _, 0 => rfl
  | _ :: _, 1 => rfl
  | _ :: _ :: _, 2 => rfl

/-! ## What decoding answers (R67, R76) -/

theorem decode_nil : decode [] = .error .noOpcode := rfl

/-- A list shorter than the opcode says is rejected by name. -/
theorem decode_short {op : Byte} {rest : List Byte} (h : rest.length < operandCount op) :
    decode (op :: rest) = .error (.missingOperand op) :=
  if_pos h

/-- A list as long as the opcode says decodes to a well-formed instruction with that opcode and those operand bytes. -/
theorem decode_cons_parts {op : Byte} {rest : List Byte} (h : operandCount op ≤ rest.length) :
    ∃ i, decode (op :: rest) = .ok (i, rest.drop (operandCount op)) ∧ i.wf = true ∧ i.opcode = op ∧
      i.operands = rest.take (operandCount op) := by
  obtain ⟨hwf, hop⟩ := instrOfBytes_wf op (operandByte rest 0) (operandByte rest 1)
  refine ⟨_, decode_cons h, hwf, hop, ?_⟩
  rw [instrOfBytes_operands, take_operandBytes (operandCount_le op) h]

/-- Settles O17: an instruction's own operand bytes are as many as its opcode says and assemble to it, and the decoder
looks at no others. -/
theorem decodeOfEncodeIsTheInstruction : Obligations.DecodeOfEncodeIsTheInstruction := by
  intro i rest hwf
  obtain ⟨hlen, hself⟩ := Laws.encodedForm i hwf
  have henough : operandCount i.opcode ≤ (i.operands ++ rest).length := by
    rw [List.length_append]
    omega
  rw [encode, List.cons_append, decode_cons henough, instrOfBytes_append hlen, hself, ← hlen, List.drop_left]

/-- Settles O18: only a list that holds the opcode's operand bytes decodes, and they are the ones taken off it. -/
theorem encodeOfDecodeIsTheBytes : Obligations.EncodeOfDecodeIsTheBytes := by
  intro bytes rest i h
  cases bytes with
  | nil =>
    rw [decode_nil] at h
    cases h
  | cons op tail =>
    by_cases hlen : operandCount op ≤ tail.length
    · obtain ⟨j, hdec, hwf, hop, hoperands⟩ := decode_cons_parts hlen
      obtain ⟨rfl, rfl⟩ : j = i ∧ tail.drop (operandCount op) = rest := by simpa [hdec] using h
      exact ⟨hwf, by rw [encode, hop, hoperands, List.cons_append, List.take_append_drop]⟩
    · rw [decode_short (by omega)] at h
      cases h

/-- Settles O20: the number is the opcode's operand count. -/
theorem opcodeAloneFixesTheInstructionLength : Obligations.OpcodeAloneFixesTheInstructionLength :=
  fun op => ⟨operandCount op, operandCount_le op, fun _ h => decode_cons_parts h⟩

/-- Settles O19: each word of the opcode map is evaluated. -/
theorem wordsOfTheOpcodeMapDecode : Obligations.WordsOfTheOpcodeMapDecode := by
  unfold Obligations.WordsOfTheOpcodeMapDecode
  decide

/-! ## The unassigned opcodes and the lengths (R75, R77, R83) -/

theorem Instr.nopUnassigned_wf_iff (op : Byte) : (Instr.nopUnassigned op).wf = true ↔ op ∉ assignedOpcodes := by
  simp [Instr.wf]

theorem decode_unassigned {op : Byte} (h : op ∉ assignedOpcodes) (rest : List Byte) :
    decode (op :: rest) = .ok (.nopUnassigned op, rest) :=
  decodeOfEncodeIsTheInstruction (.nopUnassigned op) rest ((Instr.nopUnassigned_wf_iff op).mpr h)

/-- The opcode values below 256 that R72 assigns are its six, each once. -/
theorem filter_assigned_perm :
    ((List.range 256).filter fun k => assignedOpcodes.contains (BitVec.ofNat 8 k)).Perm
      (assignedOpcodes.map BitVec.toNat) := by
  rw [List.perm_ext_iff_of_nodup (List.nodup_range.filter _) (by decide)]
  intro k
  simp only [List.mem_filter, List.mem_range, List.contains_iff_mem, List.mem_map]
  constructor
  · rintro ⟨hk, hmem⟩
    exact ⟨_, hmem, Nat.mod_eq_of_lt hk⟩
  · rintro ⟨op, hmem, rfl⟩
    exact ⟨op.isLt, by rwa [BitVec.ofNat_toNat, BitVec.setWidth_eq]⟩

/-- The unassigned values are the other 250 of the 256. -/
theorem filter_unassigned_length :
    ((List.range 256).filter fun k => !assignedOpcodes.contains (BitVec.ofNat 8 k)).length = 250 := by
  have hassigned : _ = 6 := filter_assigned_perm.length_eq
  have htotal := List.length_eq_length_filter_add (l := List.range 256)
    fun k => assignedOpcodes.contains (BitVec.ofNat 8 k)
  rw [hassigned, List.length_range] at htotal
  omega

/-- Settles O8: the count is what the six assigned values leave; an unassigned opcode is the whole encoding of its no-op,
and that means skip. -/
theorem unassignedOpcodesAreOneByteNoOps : Obligations.UnassignedOpcodesAreOneByteNoOps :=
  ⟨filter_unassigned_length, by decide, fun op rest s h => ⟨decode_unassigned h rest, Machine.exec_nopUnassigned s op⟩⟩

/-- Settles O21, by the three cases of the operand count. -/
theorem instructionLengthTable : Obligations.InstructionLengthTable := by
  intro op
  simp only [List.mem_cons, List.not_mem_nil, or_false]
  refine ⟨fun h => ?_, fun h => ?_, fun h => ?_⟩
  · rw [instrLength, operandCount, if_pos h]
  · obtain rfl | rfl := h <;> rfl
  · rw [instrLength, operandCount, if_neg (by tauto), if_neg (by tauto)]

/-! ## The effective addresses as numbers (R38, R70) -/

namespace Machine

theorem eaZp_toNat (zp : Byte) : (eaZp zp).toNat = zp.toNat :=
  BitVec.toNat_setWidth_of_le (by decide)

theorem eaZpX_toNat (zp x : Byte) : (eaZpX zp x).toNat = (zp.toNat + x.toNat) % 256 :=
  (eaZp_toNat (zp + x)).trans (BitVec.toNat_add zp x)

theorem eaAbsX_toNat (base : Addr) (x : Byte) : (eaAbsX base x).toNat = (base.toNat + x.toNat) % 65536 := by
  rw [eaAbsX, BitVec.toNat_add, BitVec.toNat_setWidth_of_le (by decide)]

/-- Settles O7: the rule of each mode, with the absolute operand put together from its bytes. -/
theorem effectiveAddressesFollowTheModeTable : Obligations.EffectiveAddressesFollowTheModeTable := by
  intro b1 b2 x
  refine ⟨eaZp_toNat b1, eaZpX_toNat b1 x, Laws.addrOfBytes_toNat b1 b2, ?_⟩
  rw [eaAbsX_toNat, Laws.addrOfBytes_toNat]

end Machine

end Sys2Proof
end

section
/-! The obligations of 40_fetch_decode.md. Each part first says what the model's operations do: when a step answers, how a
run reaches its end, what a step over one-byte code keeps, and what the bytes at `pc` make of a step. The obligations of
the part follow from these rules. -/

namespace Sys2Proof.Machine

/-! ## When a step answers (R26, R82, R85, R108) -/

theorem step_answers {s : State} (hrs : s.rs = .running) (hpc : s.pc.toNat ≤ 0xFFFF) : ∃ t, step s = .next t := by
  by_cases hfit : s.pc.toNat + instrLength s.opcodeAtPc ≤ 0x10000
  · obtain ⟨u, hu⟩ := exec_answers s.instrAtPc (s.advancePc (instrLength s.opcodeAtPc))
    exact ⟨_, step_whole hrs hfit hu⟩
  · exact ⟨_, step_past hrs hpc (by omega)⟩

/-- A step that is not enabled stops with a fault, by the run status or else by `pc`. -/
theorem step_faults {s : State} (h : ¬(s.rs = .running ∧ s.pc.toNat ≤ 0xFFFF)) : ∃ e, step s = .fault e := by
  obtain ⟨-, hnormal, herror, -⟩ := endedRunHasNoFurtherStep s
  cases hrs : s.rs with
  | normalTermination => exact ⟨_, hnormal hrs⟩
  | addressRangeError => exact ⟨_, herror hrs⟩
  | running =>
    have hpast : 0xFFFF < s.pc.toNat := Nat.lt_of_not_le fun hpc => h ⟨hrs, hpc⟩
    exact ⟨.stepNotEnabled, by simp only [step, endedFault_running hrs, fetchByte_past hpast]⟩

/-- Settles O29: an enabled step answers, any other one faults. -/
theorem everyEnabledStepAnswers : Obligations.EveryEnabledStepAnswers := by
  refine fun s => ⟨⟨fun ⟨t, h⟩ => ?_, fun ⟨hrs, hpc⟩ => step_answers hrs hpc⟩, fun r hr => ?_⟩
  · obtain ⟨hrs, hpc, -⟩ := step_cases h
    exact ⟨hrs, hpc⟩
  · by_cases henabled : s.rs = .running ∧ s.pc.toNat ≤ 0xFFFF
    · obtain ⟨t, ht⟩ := step_answers henabled.1 henabled.2
      simp [ht] at hr
    · obtain ⟨e, he⟩ := step_faults henabled
      simp [he] at hr

/-- Settles O22, from the two cases of a fetch. -/
theorem fetchByteReadsAtPcAndAdvancesByOne : Obligations.FetchByteReadsAtPcAndAdvancesByOne :=
  fun s => ⟨fun hpc => ⟨s.advancePc 1, fetchByte_inside hpc, State.advancePc_toNat (by omega), rfl⟩, fetchByte_past⟩

/-- Settles O24: the raise writes the status and the record, at `pc` = 0x10000. -/
theorem operandFetchPastTheTopRaises : Obligations.OperandFetchPastTheTopRaises :=
  fun _ hrs hpc hpast => step_past hrs hpc hpast

/-! ## The end of a run (R81, R87 to R89, R132) -/

theorem terminationCheck_eq (s : State) :
    terminationCheck s =
      if s.rs = .running ∧ 0xFFFF < s.pc.toNat then { s with rs := .normalTermination } else s := rfl

/-- A state that has ended normally after the check is the one before it but for the status. -/
theorem terminationCheck_of_normalTermination {s : State} (h : (terminationCheck s).rs = .normalTermination) :
    terminationCheck s = s.setRs .normalTermination := by
  obtain ⟨-, -, hends⟩ | ⟨-, hsame⟩ := terminationCheck_cases s
  · exact hends
  · rw [hsame] at h ⊢
    rw [← h]
    rfl

/-- Settles O27: a raise leaves another status, so the instruction ran and the check ended the run. -/
theorem terminationResetsNothing : Obligations.TerminationResetsNothing := by
  intro s t h hend
  obtain ⟨-, -, ⟨-, rfl⟩ | ⟨-, u, hu, rfl⟩⟩ := step_cases h
  · cases hend
  · exact ⟨u, hu, terminationCheck_of_normalTermination hend⟩

/-- Settles O40: the definition's two writes. -/
theorem enteringTheRunSetsPcAndStatusOnly : Obligations.EnteringTheRunSetsPcAndStatusOnly := fun _ => rfl

/-- A step goes on only inside the space and ends only at 0x10000. -/
theorem step_running_or_ended {s t : State} (h : step s = .next t) :
    (t.rs = .running ∧ s.pc.toNat < t.pc.toNat ∧ t.pc.toNat ≤ 0xFFFF) ∨ (t.rs ≠ .running ∧ t.pc.toNat = 0x10000) := by
  have hlen := one_le_instrLength s.opcodeAtPc
  obtain ⟨hend, hrs, hpc, -⟩ | ⟨hend, hrs, hpc, -⟩ | ⟨-, hrs, hpc, -⟩ := step_end_cases h
  · exact .inl ⟨hrs, by omega, by omega⟩
  · exact .inr ⟨by simp [hrs], hpc.trans hend⟩
  · exact .inr ⟨by simp [hrs], hpc⟩

/-- The loop ends by itself within as many steps as there are bytes from `pc` to the top: each step that does not end the
run takes at least one of them. -/
theorem runFor_ends {n : Nat} {s : State} (hrs : s.rs = .running) (hpc : s.pc.toNat ≤ 0xFFFF)
    (hn : 0x10000 ≤ s.pc.toNat + n) :
    ∃ k, k ≤ n ∧ stepN k s = .next (runFor n s) ∧ (runFor n s).rs ≠ .running ∧ (runFor n s).pc.toNat = 0x10000 := by
  induction n generalizing s with
  | zero => omega
  | succ n ih =>
    obtain ⟨t, ht⟩ := step_answers hrs hpc
    rw [runFor_of_step hrs ht]
    obtain ⟨hrs', hrise, hpc'⟩ | ⟨hended, htop⟩ := step_running_or_ended ht
    · obtain ⟨k, hk, hsteps, hfinal⟩ := ih hrs' hpc' (by omega)
      exact ⟨k + 1, by omega, (stepN_of_step ht).trans hsteps, hfinal⟩
    · rw [runFor_ended hended]
      exact ⟨1, by omega, stepN_of_step ht, hended, htop⟩

/-- Settles O38: PRG_BASE and the bound of the loop add up to 0x10000. -/
theorem everyRunEnds : Obligations.EveryRunEnds := by
  intro s
  have hentry : (enterRun s).pc.toNat = 0x8000 := rfl
  exact runFor_ends (s := enterRun s) rfl (by omega) (by omega)

/-! ## One-byte code (R89) -/

/-- Every byte from `pc` to the top of the space is the opcode of a one-byte instruction. -/
def State.OneByteCode (s : State) : Prop :=
  ∀ a : Nat, s.pc.toNat ≤ a → a ≤ 0xFFFF → instrLength (s.readByte a) = 1

theorem State.OneByteCode.instrLength_opcodeAtPc {s : State} (h : s.OneByteCode) (hpc : s.pc.toNat ≤ 0xFFFF) :
    instrLength s.opcodeAtPc = 1 := h _ (Nat.le_refl _) hpc

/-- Only forms with operand bytes write memory. -/
theorem exec_oneByte_mem {i : Instr} {s t : State} (h : exec i s = .next t) (hlen : instrLength i.opcode = 1) :
    t.mem = s.mem := by
  cases i with
  | ldaImm _ | lsrAcc | nopUnassigned _ =>
    injection h with h
    subst h
    rfl
  | lsrZp _ | lsrZpX _ | lsrAbs _ | lsrAbsX _ =>
    exact absurd hlen (by simp only [Instr.opcode]; decide)

/-- A step over one-byte code moves `pc` by one and leaves one-byte code. -/
theorem step_oneByteCode {s t : State} (hone : s.OneByteCode) (h : step s = .next t) :
    t.pc.toNat = s.pc.toNat + 1 ∧ t.OneByteCode := by
  obtain ⟨-, hpc, ⟨hpast, -⟩ | ⟨hfit, u, hu, rfl⟩⟩ := step_cases h
  · rw [hone.instrLength_opcodeAtPc hpc] at hpast
    omega
  · have hlen := hone.instrLength_opcodeAtPc hpc
    have hmem := exec_oneByte_mem hu (by rwa [State.instrAtPc_opcode])
    have hadvance : (terminationCheck u).pc.toNat = s.pc.toNat + 1 := by
      rw [terminationCheck_pc, (exec_keeps hu).1, State.advancePc_toNat hfit, hlen]
    refine ⟨hadvance, fun a hlow htop => ?_⟩
    rw [State.readByte_congr ((terminationCheck_mem u).trans hmem)]
    exact hone a (by omega) htop

/-- As long as the next opcode lies in the space, the run over one-byte code goes on, one byte a step. -/
theorem stepN_oneByteCode {k : Nat} {s : State} (hrs : s.rs = .running) (hone : s.OneByteCode)
    (hk : s.pc.toNat + k ≤ 0xFFFF) :
    ∃ u, stepN k s = .next u ∧ u.rs = .running ∧ u.pc.toNat = s.pc.toNat + k ∧ u.OneByteCode := by
  induction k generalizing s with
  | zero => exact ⟨s, rfl, hrs, rfl, hone⟩
  | succ k ih =>
    obtain ⟨t, ht⟩ := step_answers hrs (by omega)
    obtain ⟨hpc, hone'⟩ := step_oneByteCode hone ht
    obtain ⟨hrs', -⟩ | ⟨-, htop⟩ := step_running_or_ended ht
    · obtain ⟨u, hu, hurs, hupc, huone⟩ := ih hrs' hone' (by omega)
      exact ⟨u, (stepN_of_step ht).trans hu, hurs, by omega, huone⟩
    · omega

/-- One more step after the others. -/
theorem stepN_succ_of_stepN {k : Nat} {s u : State} (h : stepN k s = .next u) : stepN (k + 1) s = step u := by
  induction k generalizing s with
  | zero =>
    obtain rfl : s = u := by simpa using h
    cases hs : step s <;> simp [stepN, hs]
  | succ k ih =>
    obtain ⟨t, ht, hrest⟩ := stepN_succ_cases h
    rw [stepN_of_step ht, ih hrest]

/-- Settles O39: the run goes on up to the byte at 0xFFFF, and the step over that one ends it. -/
theorem oneByteCodeRunsToTheTop : Obligations.OneByteCodeRunsToTheTop := by
  intro s hrs hpc hone
  refine ⟨fun k hk => ?_, ?_⟩
  · obtain ⟨u, hu, hurs, -⟩ := stepN_oneByteCode (k := k) hrs hone (by omega)
    exact ⟨u, hu, hurs⟩
  · obtain ⟨u, hu, hurs, hupc, huone⟩ := stepN_oneByteCode (k := 0xFFFF - s.pc.toNat) hrs hone (by omega)
    have hlast : u.pc.toNat = 0xFFFF := by omega
    have hlen := huone.instrLength_opcodeAtPc hlast.le
    obtain ⟨t, ht⟩ := step_answers hurs hlast.le
    obtain ⟨-, hnormal, -⟩ := lastByteDecidesTheRunStatus u t ht
    refine ⟨t, ?_, hnormal.mpr (by rw [hlen, hlast])⟩
    rw [show 0x10000 - s.pc.toNat = 0xFFFF - s.pc.toNat + 1 by omega, stepN_succ_of_stepN hu, ht]

/-! ## The instruction at `pc` (R67, R82, R83) -/

theorem encode_length {i : Instr} (hwf : i.wf = true) : (encode i).length = instrLength i.opcode := by
  rw [encode, List.length_cons, (Laws.encodedForm i hwf).1, instrLength, Nat.add_comm]

/-- When the bytes at `pc` are an instruction's encoding, that is the instruction at `pc`. -/
theorem State.instrAtPc_of_bytes {s : State} {i : Instr} (hwf : i.wf = true)
    (h : s.bytesAtPc (encode i).length = encode i) : s.opcodeAtPc = i.opcode ∧ s.instrAtPc = i := by
  obtain ⟨hlen, hself⟩ := Laws.encodedForm i hwf
  have hbyte : ∀ k, k < (encode i).length → s.readByte (s.pc.toNat + k) = operandByte (encode i) k := fun k hk => by
    rw [← State.bytesAtPc_operand hk, h]
  rw [encode_length hwf, instrLength] at hbyte
  have hop : s.opcodeAtPc = i.opcode := hbyte 0 (by omega)
  refine ⟨hop, ?_⟩
  rw [State.instrAtPc, hop]
  exact (instrOfBytes_congr (fun _ => hbyte 1 (by omega)) (fun _ => hbyte 2 (by omega))).trans hself

/-- The step over an instruction whose encoding lies at `pc`: its meaning past its bytes, then the termination check. -/
theorem step_of_bytes {s : State} {i : Instr} (hrs : s.rs = .running) (hwf : i.wf = true)
    (hfit : s.pc.toNat + (encode i).length ≤ 0x10000) (h : s.bytesAtPc (encode i).length = encode i) :
    ∃ u, exec i (s.advancePc (encode i).length) = .next u ∧ step s = .next (terminationCheck u) := by
  obtain ⟨hop, hinstr⟩ := State.instrAtPc_of_bytes hwf h
  obtain ⟨u, hu⟩ := exec_answers i (s.advancePc (encode i).length)
  rw [encode_length hwf, ← hop] at hfit hu ⊢
  exact ⟨u, hu, step_whole hrs hfit (by rwa [hinstr])⟩

/-- Settles O23: bytes that decode with none left are the instruction's encoding. -/
theorem stepRunsTheDecodedInstruction : Obligations.StepRunsTheDecodedInstruction := by
  intro s i n hrs hfit hdec
  obtain ⟨hwf, hbytes⟩ := encodeOfDecodeIsTheBytes _ _ _ hdec
  rw [List.append_nil] at hbytes
  obtain rfl : (encode i).length = n := by rw [hbytes, State.bytesAtPc_length]
  exact ⟨hwf, step_of_bytes hrs hwf hfit hbytes.symm⟩

/-- Settles O9: the instruction at `pc` is the no-op, one byte long. -/
theorem unassignedOpcodeStepMovesPcOnly : Obligations.UnassignedOpcodeStepMovesPcOnly := by
  intro s hrs hpc hop
  have hwf := (Instr.nopUnassigned_wf_iff s.opcodeAtPc).mpr hop
  obtain ⟨u, hu, hstep⟩ := step_of_bytes (i := .nopUnassigned s.opcodeAtPc) hrs hwf
    (Nat.succ_le_succ hpc) (State.bytesAtPc_succ s 0 (Nat.succ_le_succ hpc))
  obtain rfl : s.advancePc 1 = u := by simpa [encode, Instr.operands, exec_nopUnassigned] using hu
  have hadvance := State.advancePc_toNat (s := s) (n := 1) (by omega)
  rw [hstep, terminationCheck_eq]
  by_cases htop : s.pc.toNat = 0xFFFF
  · have hend : s.pc + 1 = 0x10000 := by bv_omega
    rw [if_pos ⟨hrs, by omega⟩, if_pos htop, ← hend]
    rfl
  · rw [if_neg (fun ⟨_, hpast⟩ => by omega), if_neg htop]
    rfl

/-! ## The host's word placement (R68, log entry 3) -/

/-- Bytes stored from `pc` up are the bytes at `pc`. -/
theorem State.bytesAtPc_writeBytes {s : State} (hm : s.mem.wf = true) {bs : List Byte}
    (hfit : s.pc.toNat + bs.length ≤ 0x10000) {n : Nat} (hn : n ≤ bs.length) :
    (s.setMem (s.mem.writeBytes s.pc.toNat bs)).bytesAtPc n = bs.take n := by
  refine List.ext_getElem (by simpa [State.bytesAtPc_length] using hn) fun k hk _ => ?_
  rw [State.bytesAtPc_length] at hk
  simp only [State.bytesAtPc, List.getElem_map, List.getElem_range, List.getElem_take, State.setMem_pc]
  rw [State.readByte_inside _ (by omega), State.setMem_mem, Memory.read_writeBytes hm hfit, if_pos (by omega),
    Nat.add_sub_cancel_left, List.getD_eq_getElem _ _ (by omega)]

theorem tableWordBytes_length (nbits w : Nat) : (tableWordBytes nbits w).length = 3 := rfl

/-- Three bytes fit from `pc` up where `pc` is at most 0xFFFD, so the whole word is stored. -/
theorem State.withFetchWord_eq {s : State} (hpc : s.pc.toNat ≤ 0xFFFD) (nbits w : Nat) :
    s.withFetchWord nbits w = s.setMem (s.mem.writeBytes s.pc.toNat (tableWordBytes nbits w)) := by
  rw [State.withFetchWord, List.take_of_length_le]
  rw [tableWordBytes_length, Config.addressSpaceBytes]
  omega

theorem decodeTableWord_eq_some {nbits w : Nat} {i : Instr} (h : decodeTableWord nbits w = some i) :
    ∃ rest, decode (tableWordBytes nbits w) = .ok (i, rest) := by
  unfold decodeTableWord at h
  split at h
  · rename_i j rest hdec
    obtain rfl : j = i := by simpa using h
    exact ⟨rest, hdec⟩
  · cases h

/-- Settles O30: the word begins with the encoding of the instruction the decoder reads from it. -/
theorem fetchWordIsTheNextInstruction : Obligations.FetchWordIsTheNextInstruction := by
  intro s nbits w i hrs hpc hm hword
  obtain ⟨rest, hdec⟩ := decodeTableWord_eq_some hword
  obtain ⟨hwf, hbytes⟩ := encodeOfDecodeIsTheBytes _ _ _ hdec
  have hlen : (encode i).length + rest.length = 3 := by
    rw [← List.length_append, hbytes, tableWordBytes_length]
  have hplaced : (s.withFetchWord nbits w).bytesAtPc (encode i).length = encode i := by
    rw [State.withFetchWord_eq hpc, State.bytesAtPc_writeBytes hm (by rw [tableWordBytes_length]; omega)
      (by rw [tableWordBytes_length]; omega), ← hbytes, List.take_left]
  have hstay : (s.withFetchWord nbits w).pc = s.pc := rfl
  exact step_of_bytes hrs hwf (by rw [hstay]; omega) hplaced

end Sys2Proof.Machine
end

section
/-! The obligations of 41_load.md. First come the flags a loaded byte gives, as arithmetic on it, and the part of the
frame that every instruction's meaning has; the obligations follow from them. -/

namespace Sys2Proof.Machine

open Sys2Proof.Claims

/-! ## The flags of a loaded byte (R94) -/

theorem Flags.afterLoad_z_iff (f : Flags) (v : Byte) : (f.afterLoad v).z = true ↔ v.toNat = 0 := by
  rw [Flags.afterLoad_z, beq_iff_eq]
  exact BitVec.toNat_inj.symm

/-- Bit 7 of a byte is its most significant bit, which is set from 128 up. -/
theorem Flags.afterLoad_n_iff (f : Flags) (v : Byte) : (f.afterLoad v).n = true ↔ 128 ≤ v.toNat := by
  have hmsb : v.getLsbD 7 = v.msb := (BitVec.msb_eq_getLsbD_last v).symm
  rw [Flags.afterLoad_n, hmsb, BitVec.msb_eq_decide, decide_eq_true_iff]

/-- Settles O1: the answer is A and the flags after the load, whose Z and N are arithmetic on the byte. -/
theorem ldaImmLoadsAccumulatorAndSetsZN : Obligations.LdaImmLoadsAccumulatorAndSetsZN := fun imm8 s =>
  ⟨_, exec_ldaImm s imm8, rfl, s.f.afterLoad_z_iff imm8, s.f.afterLoad_n_iff imm8⟩

/-! ## The frame of the load (R20, R94, decision D8) -/

/-- Every instruction's meaning keeps all but A, the flags C, Z and N, and memory. -/
theorem exec_keepsControl {i : Instr} {s t : State} (h : exec i s = .next t) : KeepsControl s t := by
  obtain ⟨hpc, hrs, hfa, hinert⟩ := exec_keeps h
  exact ⟨hinert, hpc, hrs, hfa⟩

/-- Settles O2: what every meaning keeps is kept, and the load's own answer has the old C and the old memory. -/
theorem ldaImmWritesOnlyAZN : Obligations.LdaImmWritesOnlyAZN := by
  intro imm8 s t h
  have hcontrol := exec_keepsControl h
  obtain rfl : (s.setA imm8).setF (s.f.afterLoad imm8) = t := by simpa [exec_ldaImm] using h
  exact ⟨hcontrol, s.f.afterLoad_c imm8, State.readByte_congr rfl⟩

end Sys2Proof.Machine
end

section
/-! The obligations of 42_shift.md. First comes `LsrCore` as arithmetic on its operand; then each form's meaning is said in
one rule for its destination, the accumulator or the byte at an effective address, and the four memory forms share it. -/

namespace Sys2Proof.Machine

open Sys2Proof.Claims

/-! ## The shifted byte and its flags (R96, decision D7) -/

theorem lsrResult_toNat (v : Byte) : (lsrResult v).toNat = v.toNat / 2 := by
  rw [lsrResult, BitVec.toNat_ushiftRight, Nat.shiftRight_eq_div_pow, pow_one]

/-- Bit 0 of a byte, the bit shifted out, is set in the odd ones. -/
theorem Flags.afterLsr_c_iff (f : Flags) (v : Byte) : (f.afterLsr v).c = true ↔ v.toNat % 2 = 1 := by
  rw [Flags.afterLsr_c, BitVec.getLsbD, Nat.testBit_zero, decide_eq_true_iff]

theorem Flags.afterLsr_z_iff (f : Flags) (v : Byte) : (f.afterLsr v).z = true ↔ v.toNat / 2 = 0 := by
  rw [Flags.afterLsr_z, beq_iff_eq, ← lsrResult_toNat]
  exact BitVec.toNat_inj.symm

theorem Flags.afterLsr_lsrFlags (f : Flags) (v : Byte) : LsrFlags v (f.afterLsr v) :=
  ⟨f.afterLsr_c_iff v, f.afterLsr_z_iff v, f.afterLsr_n v⟩

/-! ## LSR of the accumulator (R97, decision D8) -/

/-- Settles O3: the answer is the shifted accumulator and the flags after the shift. -/
theorem lsrAccShiftsAccumulator : Obligations.LsrAccShiftsAccumulator := fun s =>
  ⟨_, exec_lsrAcc s, lsrResult_toNat s.a, s.f.afterLsr_lsrFlags s.a⟩

/-- Settles O4: what every meaning keeps is kept, and the shift's own answer has the old memory. -/
theorem lsrAccWritesOnlyACZN : Obligations.LsrAccWritesOnlyACZN := by
  intro s t h
  have hcontrol := exec_keepsControl h
  obtain rfl : (s.setF (s.f.afterLsr s.a)).setA (lsrResult s.a) = t := by simpa [exec_lsrAcc] using h
  exact ⟨hcontrol, State.readByte_congr rfl⟩

/-! ## LSR of a memory byte (R98 to R102, decisions D5 and D8) -/

section
variable {i : Instr} {ea : Addr} {s : State} (hm : s.mem.wf = true) (hexec : exec i s = .next (lsrMemory ea s))
include hm hexec

/-- A meaning that is LSR of the byte at `ea` halves that byte: the write at `ea` is read back. -/
theorem shiftsByteAt_of_exec : ShiftsByteAt i ea s := by
  refine ⟨lsrMemory ea s, hexec, ?_, s.f.afterLsr_lsrFlags _⟩
  rw [lsrMemory_readByte hm, if_pos (Nat.mod_eq_of_lt ea.isLt), lsrResult_toNat]

/-- It writes no other byte, and A is none of what it writes. -/
theorem writesOnlyByteAt_of_exec : WritesOnlyByteAt i ea s := by
  intro t ht
  have hcontrol := exec_keepsControl ht
  obtain rfl : lsrMemory ea s = t := by simpa [hexec] using ht
  refine ⟨hcontrol, lsrMemory_a s ea, fun k hk => ?_⟩
  rw [lsrMemory_readByte hm, if_neg hk]

end

/-- Settles O5: each form's meaning is LSR of the byte at its effective address. -/
theorem lsrMemoryFormsShiftTheByteAtTheirAddress : Obligations.LsrMemoryFormsShiftTheByteAtTheirAddress :=
  fun zp addr s hm =>
    ⟨shiftsByteAt_of_exec hm (exec_lsrZp s zp), shiftsByteAt_of_exec hm (exec_lsrZpX s zp),
      shiftsByteAt_of_exec hm (exec_lsrAbs s addr), shiftsByteAt_of_exec hm (exec_lsrAbsX s addr)⟩

/-- Settles O6, by the same equations of the four forms. -/
theorem lsrMemoryFormsWriteOnlyOneByte : Obligations.LsrMemoryFormsWriteOnlyOneByte :=
  fun zp addr s hm =>
    ⟨writesOnlyByteAt_of_exec hm (exec_lsrZp s zp), writesOnlyByteAt_of_exec hm (exec_lsrZpX s zp),
      writesOnlyByteAt_of_exec hm (exec_lsrAbs s addr), writesOnlyByteAt_of_exec hm (exec_lsrAbsX s addr)⟩

end Sys2Proof.Machine
end

section
/-! The obligations of 60_exceptions.md. First comes what each check of the load step answers when it is the first to fail,
and the load reports that answer. Then the legal states are kept by any number of steps, and so by the run of a session. -/

namespace Sys2Proof.Machine

open Sys2Proof.Claims

/-! ## The checks of the load step in their order (R105, R111) -/

/-- The claims' token is the one the validation compares. -/
theorem hasToken_iff_sig {img : List Byte} {hd : Header} (hp : parseHeader img = .ok hd) :
    HasToken img ↔ hd.sig.toList.take 3 = [0x4E, 0x45, 0x53] := by
  obtain ⟨-, -, -, -, -, hsig⟩ := parseHeader_ok hp
  rw [hd.token_iff, hsig]
  rfl

theorem sentinel_eq_imageByte {img : List Byte} {hd : Header} (hp : parseHeader img = .ok hd) :
    hd.sig[3] = imageByte img 3 := by
  obtain ⟨-, -, -, -, -, hsig⟩ := parseHeader_ok hp
  rw [hsig]
  rfl

theorem loadProgram_unsupportedMapper {id : Byte} (hid : id ≠ 0) (p : Nat) (img : List Byte) (m : Memory) :
    loadProgram id p img m = .error (.unsupportedMapper id) := if_pos hid

theorem loadProgram_prgOversize {p : Nat} (hp : 32768 < p) (img : List Byte) (m : Memory) :
    loadProgram 0 p img m = .error (.prgOversize p) := if_pos hp

theorem loadProgram_payloadTruncated {p : Nat} {img : List Byte} (hp : p ≤ 32768) (hl : img.length < 16 + p)
    (m : Memory) : loadProgram 0 p img m = .error (.payloadTruncated img.length) :=
  (if_neg (Nat.not_lt.mpr hp)).trans (if_pos hl)

/-- An image too short for a header is refused before any other check. -/
theorem loadImage_truncated (fn : Header → Byte) {img : List Byte} (h : img.length < 16) :
    loadImage fn img = .error (.formatError .truncated) := by
  simp only [loadImage, parseHeader_short h]

/-- A header the validation refuses is reported before the mapper and the sizes. -/
theorem loadImage_of_validate_error (fn : Header → Byte) {img : List Byte} {hd : Header} {r : LoadRefusal}
    (hp : parseHeader img = .ok hd) (hv : validate hd = .error r) : loadImage fn img = .error r := by
  simp only [loadImage, hp, hv]

/-- After a valid header the load reports what `loadProgram` refuses. -/
theorem loadImage_of_loadProgram_error {fn : Header → Byte} {img : List Byte} {hd : Header} {r : LoadRefusal}
    (hp : parseHeader img = .ok hd) (hv : validate hd = .ok ())
    (hr : loadProgram (fn hd) (hd.prgUnits.toNat * 16384) img construct = .error r) : loadImage fn img = .error r := by
  simp only [loadImage, hp, hv, deriveRomSizes, prgUnitBytes, hr]

/-- Settles O45: the header's validation in its order, then the checks of `loadProgram` in theirs. -/
theorem loadReportsTheFirstFailingCheck : Obligations.LoadReportsTheFirstFailingCheck := by
  refine fun fn img => ⟨loadImage_truncated fn, fun hlong htoken => ?_, fun hlong htoken hend => ?_,
    fun hd hp htoken hend => ?_⟩
  · obtain ⟨hd, hp⟩ := parseHeader_long hlong
    obtain ⟨hmismatch, -⟩ := signatureIsCheckedBeforeTheSentinel hd
    rw [hasToken_iff_sig hp] at htoken
    exact loadImage_of_validate_error fn hp (hmismatch htoken)
  · obtain ⟨hd, hp⟩ := parseHeader_long hlong
    obtain ⟨-, hmissing, -⟩ := signatureIsCheckedBeforeTheSentinel hd
    rw [hasToken_iff_sig hp] at htoken
    rw [← sentinel_eq_imageByte hp] at hend
    exact loadImage_of_validate_error fn hp (hmissing htoken hend)
  · obtain ⟨-, -, hvalid⟩ := signatureIsCheckedBeforeTheSentinel hd
    have hv : validate hd = .ok () := hvalid ((hasToken_iff_sig hp).mp htoken) ((sentinel_eq_imageByte hp).trans hend)
    refine ⟨fun hid => ?_, fun hid hbig => ?_, fun hid hfit hshort => ?_, fun hid hfit hwhole => ?_⟩
    · exact loadImage_of_loadProgram_error hp hv (loadProgram_unsupportedMapper hid _ _ _)
    · refine loadImage_of_loadProgram_error hp hv ?_
      rw [hid]
      exact loadProgram_prgOversize (by omega) _ _
    · refine loadImage_of_loadProgram_error hp hv ?_
      rw [hid]
      exact loadProgram_payloadTruncated (by omega) hshort _
    · have hcap : (deriveRomSizes hd).1 ≤ 32768 := by
        simp only [deriveRomSizes, prgUnitBytes]
        omega
      exact ⟨_, loadImage_ok.mpr ⟨hd, hp, hv, hid, hcap, hwhole, rfl⟩, hid, rfl, rfl⟩

/-! ## A whole session (R110, R131, R132) -/

/-- Legality is an invariant of any number of steps. -/
theorem stepN_legal {k : Nat} {s t : State} (hs : s.Legal) (h : stepN k s = .next t) : t.Legal := by
  induction k generalizing s with
  | zero =>
    obtain rfl : s = t := by simpa using h
    exact hs
  | succ k ih =>
    obtain ⟨u, hstep, hrest⟩ := stepN_succ_cases h
    exact ih (stepKeepsSessionLegal s u hs hstep) hrest

/-- A created session stands where the run enters it. -/
theorem enterRun_of_boot {fn : Header → Byte} {init : Config.InitRegs} {img : List Byte} {s : State}
    (h : boot fn init img = .ok s) : enterRun s = s := by
  obtain ⟨bus, -, rfl⟩ := boot_ok.mp h
  rfl

/-- The run of a booted session ends in a legal state that keeps what no instruction writes. -/
theorem run_of_boot {fn : Header → Byte} {init : Config.InitRegs} {img : List Byte} {s : State}
    (h : boot fn init img = .ok s) : (run s).rs ≠ .running ∧ (run s).Legal ∧ s.SameInert (run s) := by
  obtain ⟨k, -, hsteps, hended, -⟩ := everyRunEnds s
  rw [enterRun_of_boot h] at hsteps
  exact ⟨hended, stepN_legal (bootedSessionIsLegal fn init img s h) hsteps,
    inertStateKeepsItsValueForTheWholeRun k s _ hsteps⟩

theorem loadAndRun_of_boot_error {fn : Header → Byte} {init : Config.InitRegs} {img : List Byte} {r : LoadRefusal}
    (h : boot fn init img = .error r) : loadAndRun fn init img = .error r := by
  simp only [loadAndRun, h]

theorem loadAndRun_of_boot_ok {fn : Header → Byte} {init : Config.InitRegs} {img : List Byte} {s : State}
    (h : boot fn init img = .ok s) : loadAndRun fn init img = .ok (run s) := by
  simp only [loadAndRun, h]

/-- Settles O52: a refused load creates no session, and the run of a created one ends. -/
theorem everySessionIsRefusedOrEnds : Obligations.EverySessionIsRefusedOrEnds := by
  intro fn init img
  obtain ⟨hrefused, hcreated⟩ := bootCreatesTheSessionOfR31 fn init img
  cases hload : loadImage fn img with
  | error r => exact .inl ⟨r, rfl, loadAndRun_of_boot_error (hrefused r hload)⟩
  | ok bus =>
    obtain ⟨s, hboot, -⟩ := hcreated bus hload
    exact .inr ⟨s, run s, hboot, loadAndRun_of_boot_ok hboot, run_of_boot hboot⟩

end Sys2Proof.Machine
end
